-- ==== Sys2Proof/Word.lean ====
section
/-! DEFINITION. The word types of the machine (spec/00_scope.md R5, R8): every value is unsigned, so the plain
arithmetic of `BitVec` (wrapping at the width) is the machine's. -/

namespace Sys2Proof

/-- A byte: a general register, a timer, a memory cell, an immediate `nn` (R5 `REG_WIDTH`, `TIMER_WIDTH`). -/
abbrev Byte := BitVec 8

/-- A 16-bit word: `pc`, `I`, a stack entry, an instruction word (R5 `PC_WIDTH`, `I_WIDTH`). -/
abbrev Word := BitVec 16

/-- A 12-bit immediate `nnn` (30_encoding.md R91). -/
abbrev Addr12 := BitVec 12

/-- What a 4-bit instruction field selects: a register, a key, a glyph, a row count (30_encoding.md R93: every
value 0 to 15 is legal). -/
abbrev Nib := Fin 16

end Sys2Proof
end

