-- ==== Sys2Proof/Syntax.lean ====
section
/-! DEFINITION. The 34 instructions (spec/30_encoding.md R94), one constructor per row of spec/opcode_table.json.
An argument named `ign` is a nibble the row's dispatch key ignores (R96): it is kept, because `RET` on an empty stack
reports the word as fetched (60_exceptions.md R261), and so that each legal word is exactly one term. -/

namespace Sys2Proof

/-- An instruction with its operand fields (30_encoding.md R91, R92). -/
inductive Instr where
  /-- `00E0` clear display (R220). -/
  | cls (ign : Nib)
  /-- `00EE` return from subroutine (R154). -/
  | ret (ign : Nib)
  /-- `1nnn` jump (R151). -/
  | jp (nnn : Addr12)
  /-- `2nnn` call (R153). -/
  | call (nnn : Addr12)
  /-- `3xnn` skip if `V[x] = nn` (R155). -/
  | seImm (x : Nib) (nn : Byte)
  /-- `4xnn` skip if `V[x] != nn` (R156). -/
  | sneImm (x : Nib) (nn : Byte)
  /-- `5xy0` skip if `V[x] = V[y]` (R157). -/
  | seReg (x y ign : Nib)
  /-- `6xnn` load immediate (R172). -/
  | ldImm (x : Nib) (nn : Byte)
  /-- `7xnn` add immediate, no flag (R173). -/
  | addImm (x : Nib) (nn : Byte)
  /-- `8xy0` copy register (R174). -/
  | ldReg (x y : Nib)
  /-- `8xy1` OR (R175). -/
  | orReg (x y : Nib)
  /-- `8xy2` AND (R176). -/
  | andReg (x y : Nib)
  /-- `8xy3` exclusive OR (R177). -/
  | xorReg (x y : Nib)
  /-- `8xy4` add, flag is carry out (R178). -/
  | addReg (x y : Nib)
  /-- `8xy5` subtract, flag is no-borrow (R179). -/
  | subReg (x y : Nib)
  /-- `8xy6` shift right by one (R180); `ign` is the `y` nibble. -/
  | shr (x ign : Nib)
  /-- `8xy7` reverse subtract (R181). -/
  | subn (x y : Nib)
  /-- `8xyE` shift left by one (R182); `ign` is the `y` nibble. -/
  | shl (x ign : Nib)
  /-- `9xy0` skip if `V[x] != V[y]` (R158). -/
  | sneReg (x y ign : Nib)
  /-- `Annn` set index (R200). -/
  | ldI (nnn : Addr12)
  /-- `Bnnn` jump with offset `V[0]` (R152). -/
  | jpV0 (nnn : Addr12)
  /-- `Cxnn` random byte under a mask (R183). -/
  | rnd (x : Nib) (nn : Byte)
  /-- `Dxyn` draw sprite of `n` rows (R222). -/
  | drw (x y n : Nib)
  /-- `Ex9E` skip if key pressed (R235). -/
  | skp (x : Nib)
  /-- `ExA1` skip if key not pressed (R236). -/
  | sknp (x : Nib)
  /-- `Fx07` read the delay timer (R239). -/
  | ldVxDt (x : Nib)
  /-- `Fx0A` wait for a key (R237). -/
  | ldVxK (x : Nib)
  /-- `Fx15` set the delay timer (R240). -/
  | ldDtVx (x : Nib)
  /-- `Fx18` set the sound timer (R241). -/
  | ldStVx (x : Nib)
  /-- `Fx1E` add register to index (R201). -/
  | addIVx (x : Nib)
  /-- `Fx29` address of a font glyph (R202). -/
  | ldF (x : Nib)
  /-- `Fx33` store binary-coded decimal (R203). -/
  | ldB (x : Nib)
  /-- `Fx55` store `V[0]` to `V[x]` (R204). -/
  | stRegs (x : Nib)
  /-- `Fx65` load `V[0]` to `V[x]` (R205). -/
  | ldRegs (x : Nib)
deriving DecidableEq, Repr

end Sys2Proof
end

