-- ==== Sys2Proof/WellFormed.lean ====
section
/-! DEFINITION. Which instruction terms are in canonical form. Every operand has a type of exactly its field's width
(30_encoding.md R93: every value is legal), so the one thing left to check is R96: "The canonical encoding has the
ignored bits 0, and an assembler emits 0 there". The hardware executes the other words too, and so does this model:
no meaning and no decoder looks at this check. -/

namespace Sys2Proof

/-- R96, R101: the ignored nibble of `00E0`, `00EE`, `5xy0`, `9xy0`, `8xy6` and `8xyE` is 0. -/
def Instr.wellFormed : Instr → Bool
  | .cls ign => ign == 0
  | .ret ign => ign == 0
  | .seReg _ _ ign => ign == 0
  | .sneReg _ _ ign => ign == 0
  | .shr _ ign => ign == 0
  | .shl _ ign => ign == 0
  | .jp _ | .call _ | .seImm _ _ | .sneImm _ _ | .ldImm _ _ | .addImm _ _ | .ldReg _ _ | .orReg _ _
  | .andReg _ _ | .xorReg _ _ | .addReg _ _ | .subReg _ _ | .subn _ _ | .ldI _ | .jpV0 _ | .rnd _ _
  | .drw _ _ _ | .skp _ | .sknp _ | .ldVxDt _ | .ldVxK _ | .ldDtVx _ | .ldStVx _ | .addIVx _ | .ldF _
  | .ldB _ | .stRegs _ | .ldRegs _ => true

end Sys2Proof
end

