-- ==== Sys2Proof/Decode.lean ====
section
/-! DEFINITION. The decoder and dispatcher (spec/30_encoding.md R91, R94, R95, R97, R100), the encoder (R92, R94), and
the opcode table of R94 written out as masks and matches. Decoding is a pure total function of the word (R100). -/

namespace Sys2Proof

/-! ## Fields -/

/-- The 4-bit field of `w` whose lowest bit is bit `lo`: `w >> lo`, low four bits. -/
def nibbleAt (lo : Nat) (w : Word) : Nib := Fin.ofNat 16 (w.toNat / 2 ^ lo)

/-- R91 `op`, bits 15 to 12. -/
def fieldOp (w : Word) : Nib := nibbleAt 12 w

/-- R91 `x`, bits 11 to 8. -/
def fieldX (w : Word) : Nib := nibbleAt 8 w

/-- R91 `y`, bits 7 to 4. -/
def fieldY (w : Word) : Nib := nibbleAt 4 w

/-- R91 `n`, bits 3 to 0. -/
def fieldN (w : Word) : Nib := nibbleAt 0 w

/-- R91 `nn`, bits 7 to 0. -/
def fieldNN (w : Word) : Byte := w.setWidth 8

/-- R91 `nnn`, bits 11 to 0. -/
def fieldNNN (w : Word) : Addr12 := w.setWidth 12

/-! ## Decoding -/

/-- Why bytes are no instruction: the family whose second dispatch key has no handler (R97), or too few bytes. -/
inductive DecodeReject where
  /-- `op = 0` and `nn` is neither 0xE0 nor 0xEE. -/
  | family0
  /-- `op = 8` and `n` is one of 8 to 0xD or 0xF. -/
  | family8
  /-- `op = 0xE` and `nn` is neither 0x9E nor 0xA1. -/
  | familyE
  /-- `op = 0xF` and `nn` is none of the nine sub-opcodes. -/
  | familyF
  /-- Fewer than two bytes were given. The machine never sees this: a fetch always has two bytes. -/
  | truncated
deriving DecidableEq, Repr

/-- Family 0 is keyed on `nn` (R95); `x` is ignored (R96). -/
def decodeFamily0 (x : Nib) (nn : Byte) : Except DecodeReject Instr :=
  if nn = 0xE0 then .ok (.cls x)
  else if nn = 0xEE then .ok (.ret x)
  else .error .family0

/-- Family 8 is keyed on `n` (R95); the shifts ignore `y` (R96). -/
def decodeFamily8 (x y n : Nib) : Except DecodeReject Instr :=
  match n.val with
  | 0x0 => .ok (.ldReg x y)
  | 0x1 => .ok (.orReg x y)
  | 0x2 => .ok (.andReg x y)
  | 0x3 => .ok (.xorReg x y)
  | 0x4 => .ok (.addReg x y)
  | 0x5 => .ok (.subReg x y)
  | 0x6 => .ok (.shr x y)
  | 0x7 => .ok (.subn x y)
  | 0xE => .ok (.shl x y)
  | _ => .error .family8

/-- Family E is keyed on `nn` (R95). -/
def decodeFamilyE (x : Nib) (nn : Byte) : Except DecodeReject Instr :=
  if nn = 0x9E then .ok (.skp x)
  else if nn = 0xA1 then .ok (.sknp x)
  else .error .familyE

/-- Family F is keyed on `nn` (R95). -/
def decodeFamilyF (x : Nib) (nn : Byte) : Except DecodeReject Instr :=
  if nn = 0x07 then .ok (.ldVxDt x)
  else if nn = 0x0A then .ok (.ldVxK x)
  else if nn = 0x15 then .ok (.ldDtVx x)
  else if nn = 0x18 then .ok (.ldStVx x)
  else if nn = 0x1E then .ok (.addIVx x)
  else if nn = 0x29 then .ok (.ldF x)
  else if nn = 0x33 then .ok (.ldB x)
  else if nn = 0x55 then .ok (.stRegs x)
  else if nn = 0x65 then .ok (.ldRegs x)
  else .error .familyF

/-- R95: the dispatcher, from the first key `op` and, in families 0, 8, E and F, the second key. -/
def decodeWord (w : Word) : Except DecodeReject Instr :=
  let x := fieldX w
  let y := fieldY w
  let n := fieldN w
  let nn := fieldNN w
  let nnn := fieldNNN w
  match (fieldOp w).val with
  | 0x0 => decodeFamily0 x nn
  | 0x1 => .ok (.jp nnn)
  | 0x2 => .ok (.call nnn)
  | 0x3 => .ok (.seImm x nn)
  | 0x4 => .ok (.sneImm x nn)
  | 0x5 => .ok (.seReg x y n)
  | 0x6 => .ok (.ldImm x nn)
  | 0x7 => .ok (.addImm x nn)
  | 0x8 => decodeFamily8 x y n
  | 0x9 => .ok (.sneReg x y n)
  | 0xA => .ok (.ldI nnn)
  | 0xB => .ok (.jpV0 nnn)
  | 0xC => .ok (.rnd x nn)
  | 0xD => .ok (.drw x y n)
  | 0xE => decodeFamilyE x nn
  | _ => decodeFamilyF x nn

/-- R64: the byte at the lower address is bits 15 to 8 of the word. -/
def wordOfBytes (hi lo : Byte) : Word := BitVec.ofNat 16 (hi.toNat * 256 + lo.toNat)

/-- Bits 15 to 8 of a word: the byte at the lower address (R102). -/
def highByte (w : Word) : Byte := BitVec.ofNat 8 (w.toNat / 256)

/-- Bits 7 to 0 of a word. -/
def lowByte (w : Word) : Byte := w.setWidth 8

/-- The decoder on any bytes: the first two form the word (R90), the rest is handed back. -/
def decode : List Byte → Except DecodeReject (Instr × List Byte)
  | hi :: lo :: rest =>
    match decodeWord (wordOfBytes hi lo) with
    | .ok i => .ok (i, rest)
    | .error e => .error e
  | _ => .error .truncated

/-! ## Encoding -/

/-- Format `XI` of R92: `op`, `x`, `nn`; also `XF` and `Z`, where `nn` is the sub-opcode and, in `Z`, `x` is ignored. -/
def wordXI (op x : Nib) (nn : Byte) : Word := BitVec.ofNat 16 (op.val * 4096 + x.val * 256 + nn.toNat)

/-- Format `A` of R92: `op`, `nnn`. -/
def wordA (op : Nib) (nnn : Addr12) : Word := BitVec.ofNat 16 (op.val * 4096 + nnn.toNat)

/-- Formats `XY` and `XYN` of R92: `op`, `x`, `y`, `n`. -/
def wordXYN (op x y n : Nib) : Word := BitVec.ofNat 16 (op.val * 4096 + x.val * 256 + y.val * 16 + n.val)

/-- The word of an instruction, from the formats of R92 and the opcode map of R94. -/
def encode : Instr → Word
  | .cls ign => wordXI 0x0 ign 0xE0
  | .ret ign => wordXI 0x0 ign 0xEE
  | .jp nnn => wordA 0x1 nnn
  | .call nnn => wordA 0x2 nnn
  | .seImm x nn => wordXI 0x3 x nn
  | .sneImm x nn => wordXI 0x4 x nn
  | .seReg x y ign => wordXYN 0x5 x y ign
  | .ldImm x nn => wordXI 0x6 x nn
  | .addImm x nn => wordXI 0x7 x nn
  | .ldReg x y => wordXYN 0x8 x y 0x0
  | .orReg x y => wordXYN 0x8 x y 0x1
  | .andReg x y => wordXYN 0x8 x y 0x2
  | .xorReg x y => wordXYN 0x8 x y 0x3
  | .addReg x y => wordXYN 0x8 x y 0x4
  | .subReg x y => wordXYN 0x8 x y 0x5
  | .shr x ign => wordXYN 0x8 x ign 0x6
  | .subn x y => wordXYN 0x8 x y 0x7
  | .shl x ign => wordXYN 0x8 x ign 0xE
  | .sneReg x y ign => wordXYN 0x9 x y ign
  | .ldI nnn => wordA 0xA nnn
  | .jpV0 nnn => wordA 0xB nnn
  | .rnd x nn => wordXI 0xC x nn
  | .drw x y n => wordXYN 0xD x y n
  | .skp x => wordXI 0xE x 0x9E
  | .sknp x => wordXI 0xE x 0xA1
  | .ldVxDt x => wordXI 0xF x 0x07
  | .ldVxK x => wordXI 0xF x 0x0A
  | .ldDtVx x => wordXI 0xF x 0x15
  | .ldStVx x => wordXI 0xF x 0x18
  | .addIVx x => wordXI 0xF x 0x1E
  | .ldF x => wordXI 0xF x 0x29
  | .ldB x => wordXI 0xF x 0x33
  | .stRegs x => wordXI 0xF x 0x55
  | .ldRegs x => wordXI 0xF x 0x65

/-- The two bytes of an instruction as they lie in memory (R90, R102): high byte first. -/
def encodeBytes (i : Instr) : List Byte := [highByte (encode i), lowByte (encode i)]

/-! ## The opcode table -/

/-- One row of R94's table: a word selects the row exactly when `word AND mask = value`. -/
structure OpRow where
  pattern : String
  mask : Word
  value : Word
deriving DecidableEq, Repr

/-- The row of R94 that an instruction belongs to. -/
def Instr.row : Instr → OpRow
  | .cls _ => ⟨"00E0", 0xF0FF, 0x00E0⟩
  | .ret _ => ⟨"00EE", 0xF0FF, 0x00EE⟩
  | .jp _ => ⟨"1nnn", 0xF000, 0x1000⟩
  | .call _ => ⟨"2nnn", 0xF000, 0x2000⟩
  | .seImm _ _ => ⟨"3xnn", 0xF000, 0x3000⟩
  | .sneImm _ _ => ⟨"4xnn", 0xF000, 0x4000⟩
  | .seReg _ _ _ => ⟨"5xy0", 0xF000, 0x5000⟩
  | .ldImm _ _ => ⟨"6xnn", 0xF000, 0x6000⟩
  | .addImm _ _ => ⟨"7xnn", 0xF000, 0x7000⟩
  | .ldReg _ _ => ⟨"8xy0", 0xF00F, 0x8000⟩
  | .orReg _ _ => ⟨"8xy1", 0xF00F, 0x8001⟩
  | .andReg _ _ => ⟨"8xy2", 0xF00F, 0x8002⟩
  | .xorReg _ _ => ⟨"8xy3", 0xF00F, 0x8003⟩
  | .addReg _ _ => ⟨"8xy4", 0xF00F, 0x8004⟩
  | .subReg _ _ => ⟨"8xy5", 0xF00F, 0x8005⟩
  | .shr _ _ => ⟨"8xy6", 0xF00F, 0x8006⟩
  | .subn _ _ => ⟨"8xy7", 0xF00F, 0x8007⟩
  | .shl _ _ => ⟨"8xyE", 0xF00F, 0x800E⟩
  | .sneReg _ _ _ => ⟨"9xy0", 0xF000, 0x9000⟩
  | .ldI _ => ⟨"Annn", 0xF000, 0xA000⟩
  | .jpV0 _ => ⟨"Bnnn", 0xF000, 0xB000⟩
  | .rnd _ _ => ⟨"Cxnn", 0xF000, 0xC000⟩
  | .drw _ _ _ => ⟨"Dxyn", 0xF000, 0xD000⟩
  | .skp _ => ⟨"Ex9E", 0xF0FF, 0xE09E⟩
  | .sknp _ => ⟨"ExA1", 0xF0FF, 0xE0A1⟩
  | .ldVxDt _ => ⟨"Fx07", 0xF0FF, 0xF007⟩
  | .ldVxK _ => ⟨"Fx0A", 0xF0FF, 0xF00A⟩
  | .ldDtVx _ => ⟨"Fx15", 0xF0FF, 0xF015⟩
  | .ldStVx _ => ⟨"Fx18", 0xF0FF, 0xF018⟩
  | .addIVx _ => ⟨"Fx1E", 0xF0FF, 0xF01E⟩
  | .ldF _ => ⟨"Fx29", 0xF0FF, 0xF029⟩
  | .ldB _ => ⟨"Fx33", 0xF0FF, 0xF033⟩
  | .stRegs _ => ⟨"Fx55", 0xF0FF, 0xF055⟩
  | .ldRegs _ => ⟨"Fx65", 0xF0FF, 0xF065⟩

/-- One instruction of each row, in the order of R94's table. -/
def rowSamples : List Instr :=
  [.cls 0, .ret 0, .jp 0, .call 0, .seImm 0 0, .sneImm 0 0, .seReg 0 0 0, .ldImm 0 0, .addImm 0 0,
   .ldReg 0 0, .orReg 0 0, .andReg 0 0, .xorReg 0 0, .addReg 0 0, .subReg 0 0, .shr 0 0, .subn 0 0, .shl 0 0,
   .sneReg 0 0 0, .ldI 0, .jpV0 0, .rnd 0 0, .drw 0 0 0, .skp 0, .sknp 0, .ldVxDt 0, .ldVxK 0, .ldDtVx 0,
   .ldStVx 0, .addIVx 0, .ldF 0, .ldB 0, .stRegs 0, .ldRegs 0]

/-- R94's table: 34 rows. -/
def opcodeTable : List OpRow := rowSamples.map Instr.row

/-! ## The host's entry -/

/-- The instruction the decoder reads from the word `w` numbered as spec/opcode_table.json numbers it (bit 0 least
significant): its two bytes are laid out as the hardware stores them, high byte first (R90), and decoded. Every row
has 16 bits; bits of `w` at or above `nbits` count as 0. -/
def decodeTableWord (nbits w : Nat) : Option Instr :=
  let word : Word := BitVec.ofNat 16 (w % 2 ^ nbits)
  match decode [highByte word, lowByte word] with
  | .ok (i, _) => some i
  | .error _ => none

end Sys2Proof
end

