-- ==== Sys2Proof/Config.lean ====
section
/-! DEFINITION. The parameters the spec fixes (spec/00_scope.md R5) and the one free value, the random byte (R7).
The dialect parameters of R6 have the values of that rule's third column and are coded where they act
(notes/assumptions/9.md lists the place of each). -/

namespace Sys2Proof

/-- R5 `MEM_SIZE`: the number of bytes of main memory. -/
abbrev Config.memSize : Nat := 4096

/-- R5 `FONT_BASE`: the first address of the font. -/
abbrev Config.fontBase : Nat := 0x050

/-- R5 `FONT_END`: the last address of the font. -/
abbrev Config.fontEnd : Nat := 0x09F

/-- R5 `GLYPH_BYTES`: bytes per glyph. -/
abbrev Config.glyphBytes : Nat := 5

/-- R5 `PROG_BASE`: the entry point, and where a program is loaded. -/
abbrev Config.progBase : Nat := 0x200

/-- R5 `MAX_ROM`: the longest program image that fits, in bytes. -/
abbrev Config.maxRom : Nat := 3584

/-- R5 `STACK_DEPTH`: how many return addresses the call stack holds. -/
abbrev Config.stackDepth : Nat := 16

/-- R5 `FLAG_REG`: the register that doubles as the flag. -/
abbrev Config.flagReg : Nib := 15

/-- FREE VALUE (42_alu.md R184; 93_implementation_defined.md U7; notes/assumptions/1.md): the byte on the `rand`
input at the `k`-th draw that the host has not lined up itself. It has no body: nothing is known of it but its width. -/
opaque Config.randByte : Nat → Byte

end Sys2Proof
end

