-- ==== Sys2Proof/Machine/Memory.lean ====
section
/-! DEFINITION. Main memory as data (spec/20_memory.md R60, R66, R67): a canonical list of the bytes that differ from
the reset contents. -/

namespace Sys2Proof.Machine

/-- R67: the 16 glyphs of 5 bytes, glyph 0 first, row 0 first. -/
def fontBytes : List Byte :=
  [0xF0, 0x90, 0x90, 0x90, 0xF0] ++ [0x20, 0x60, 0x20, 0x20, 0x70] ++
  [0xF0, 0x10, 0xF0, 0x80, 0xF0] ++ [0xF0, 0x10, 0xF0, 0x10, 0xF0] ++
  [0x90, 0x90, 0xF0, 0x10, 0x10] ++ [0xF0, 0x80, 0xF0, 0x10, 0xF0] ++
  [0xF0, 0x80, 0xF0, 0x90, 0xF0] ++ [0xF0, 0x10, 0x20, 0x40, 0x40] ++
  [0xF0, 0x90, 0xF0, 0x90, 0xF0] ++ [0xF0, 0x90, 0xF0, 0x10, 0xF0] ++
  [0xF0, 0x90, 0xF0, 0x90, 0x90] ++ [0xE0, 0x90, 0xE0, 0x90, 0xE0] ++
  [0xF0, 0x80, 0x80, 0x80, 0xF0] ++ [0xE0, 0x90, 0x90, 0x90, 0xE0] ++
  [0xF0, 0x80, 0xF0, 0x80, 0xF0] ++ [0xF0, 0x80, 0xF0, 0x80, 0x80]

/-- R66: whether a masked address lies in the font region 0x050 to 0x09F. -/
def inFont (a : Nat) : Bool := decide (Config.fontBase ≤ a) && decide (a ≤ Config.fontEnd)

/-- What an unlisted address reads as: the reset contents (10_state.md R35), the font in its region and 0x00
everywhere else. -/
def blank (a : Nat) : Byte := if inFont a then fontBytes.getD (a - Config.fontBase) 0 else 0

/-- The byte at address `a`. -/
def memGet : List Host.Cell → Nat → Byte
  | [], a => blank a
  | (b, v) :: m, a => if b = a then v else memGet m a

/-- Insert a cell before the first entry of a higher address. -/
def insertCell (c : Host.Cell) : List Host.Cell → List Host.Cell
  | [] => [c]
  | d :: m => if c.1 < d.1 then c :: d :: m else d :: insertCell c m

/-- Put byte `v` at address `a`: the old entry goes, and the new one is listed unless it equals `blank a`. -/
def memPut (m : List Host.Cell) (a : Nat) (v : Byte) : List Host.Cell :=
  let rest := m.filter fun c => decide (c.1 ≠ a)
  if v = blank a then rest else insertCell (a, v) rest

/-- The canonical form: addresses strictly rising, below 4096, and no entry equal to what an unlisted address reads as. -/
def memWf : List Host.Cell → Bool
  | [] => true
  | (a, v) :: m =>
    m.all (fun c => decide (a < c.1)) && decide (a < Config.memSize) && decide (v ≠ blank a) && memWf m

end Sys2Proof.Machine
end

