-- ==== Sys2Proof/Machine/State.lean ====
section
/-! DEFINITION. The state record (spec/10_state.md R36), the outcomes' reason types, and the state after `reset`
(R35; spec/70_reset_and_hazards.md R290). -/

namespace Sys2Proof.Machine

/-- The complete state. The last two fields are the model's own (notes/assumptions/1.md): the spec counts the random
byte source as an input. -/
structure State where
  /-- The general registers `V[0]` to `V[15]` (R20); `V[15]` is also the flag (R21). -/
  V : Vector Byte 16
  /-- The program counter (R23). -/
  pc : Word
  /-- The index register (R25). -/
  I : Word
  /-- The call stack's entries (R26). -/
  stack : Vector Word 16
  /-- The stack pointer, 0 to 16: how many entries are held (R27). -/
  sp : Fin 17
  /-- The delay timer (R28). -/
  DT : Byte
  /-- The sound timer (R28). -/
  ST : Byte
  /-- The keypad flags (R29). -/
  K : Vector Bool 16
  /-- The display, `disp[py][px]` (R32). -/
  disp : Vector (Vector Bool 64) 32
  /-- Main memory (20_memory.md R60): the cells that differ from the reset contents, see Machine/Memory.lean. -/
  mem : List Host.Cell
  /-- `awaiting_key` (R30). -/
  awaitingKey : Bool
  /-- `key_dest` (R30). -/
  keyDest : Nib
  /-- `halted` (R31). -/
  halted : Bool
  /-- `err_code` (R31). -/
  errCode : BitVec 3
  /-- `err_instr` (R31). -/
  errInstr : Word
  /-- `err_pc` (R31). -/
  errPc : Word
  /-- Draws the host has lined up on the `rand` input, next first (42_alu.md R184). -/
  rands : List Byte
  /-- How many draws have been made; names the free value used when `rands` is empty. -/
  draws : Nat
deriving DecidableEq, Repr

/-- The reasons a step could end in a fault of the host's interface: NONE. Every error the spec names halts the core
with a latched report, which is a next state (60_exceptions.md R262, R264; notes/assumptions/5.md). Safe: no step is
cut short. -/
inductive Fault where
deriving DecidableEq, Repr

/-- The reasons a step could be refused. -/
inductive Refusal where
  /-- Raised by an arm of `exec` whose instruction has no meaning yet; no arm is in that case. Safe: it stops. -/
  | notModelled (mnemonic : String)
deriving DecidableEq, Repr

/-- What a meaning and a step answer. -/
abbrev Result := Host.Outcome State Fault Refusal

/-- The state after the `reset` event (R35, R290). -/
def State.reset : State where
  V := Vector.replicate 16 0
  pc := 0x0200
  I := 0
  stack := Vector.replicate 16 0
  sp := 0
  DT := 0
  ST := 0
  K := Vector.replicate 16 false
  disp := Vector.replicate 32 (Vector.replicate 64 false)
  mem := []
  awaitingKey := false
  keyDest := 0
  halted := false
  errCode := 0
  errInstr := 0
  errPc := 0
  rands := []
  draws := 0

end Sys2Proof.Machine
end

