-- ==== Sys2Proof/Machine/Ops.lean ====
section
/-! DEFINITION. The named operations every meaning is written over: register access, memory access, the fetch, the
call stack, raising a fault, the keypad and the random input (spec/00_scope.md R9, spec/10_state.md R34). -/

namespace Sys2Proof.Machine

/-! ## One update per piece of state -/

/-- `V[x]` (R20). -/
def State.readV (s : State) (x : Nib) : Byte := s.V[x.val]

/-- `V[x] <- b` (R9). No register is hardwired (R20). -/
def State.setV (x : Nib) (b : Byte) (s : State) : State := { s with V := s.V.set x.val b }

/-- `pc <- t`. -/
def State.setPc (t : Word) (s : State) : State := { s with pc := t }

/-- `I <- v`. -/
def State.setI (v : Word) (s : State) : State := { s with I := v }

/-- `stack[j] <- w`. -/
def State.setStack (j : Nib) (w : Word) (s : State) : State := { s with stack := s.stack.set j.val w }

/-- `sp <- n`. -/
def State.setSp (n : Fin 17) (s : State) : State := { s with sp := n }

/-- `DT <- b`. -/
def State.setDT (b : Byte) (s : State) : State := { s with DT := b }

/-- `ST <- b`. -/
def State.setST (b : Byte) (s : State) : State := { s with ST := b }

/-- The whole keypad state at once (R29). -/
def State.setK (k : Vector Bool 16) (s : State) : State := { s with K := k }

/-- The whole display at once. -/
def State.setDisp (d : Vector (Vector Bool 64) 32) (s : State) : State := { s with disp := d }

/-- The whole memory at once. -/
def State.setMem (m : List Host.Cell) (s : State) : State := { s with mem := m }

/-- `awaiting_key <- b`. -/
def State.setAwaiting (b : Bool) (s : State) : State := { s with awaitingKey := b }

/-- `key_dest <- x`. -/
def State.setKeyDest (x : Nib) (s : State) : State := { s with keyDest := x }

/-- The fault latch and its report, as one action (60_exceptions.md R262). -/
def State.setLatch (code : BitVec 3) (instr a : Word) (s : State) : State :=
  { s with halted := true, errCode := code, errInstr := instr, errPc := a }

/-- The model's own record of the random input. -/
def State.setRand (rs : List Byte) (k : Nat) (s : State) : State := { s with rands := rs, draws := k }

/-! ## Memory (20_memory.md R62 to R64) -/

/-- `addr AND 0xFFF`, the masking of every address (R62). -/
def mask12 (a : Word) : Nat := (a &&& 0xFFF#16).toNat

/-- `MemRead(addr, 1)` (R62): never faults, no side effect. -/
def memRead (s : State) (a : Word) : Byte := memGet s.mem (mask12 a)

/-- `MemWrite(addr, 1, v)` (R63): a store into the font region is discarded. -/
def memWrite (a : Word) (v : Byte) (s : State) : State :=
  if inFont (mask12 a) then s else s.setMem (memPut s.mem (mask12 a) v)

/-- `MemRead(pc, 2)` (R64): high byte first, each byte masked on its own. -/
def fetchWord (s : State) : Word := wordOfBytes (memRead s s.pc) (memRead s (s.pc + 1))

/-! ## Faults (60_exceptions.md R260 to R262) -/

/-- The four error kinds (R260). -/
inductive ErrKind where
  | romTooLarge
  | stackOverflow
  | stackUnderflow
  | illegalInstruction
deriving DecidableEq, Repr

/-- `err_code` of an error (R260). -/
def ErrKind.code : ErrKind → BitVec 3
  | .romTooLarge => 1
  | .stackOverflow => 2
  | .stackUnderflow => 3
  | .illegalInstruction => 4

/-- `raise F(instr, A)` (R262): latch the report and halt. Control goes nowhere (R268), and there is no return from it
(R269): only `reset` leaves the halted condition. -/
def raise (f : ErrKind) (instr a : Word) (s : State) : State := s.setLatch f.code instr a

/-- A word with no handler (30_encoding.md R98), fetched at `a`. -/
def illegalInstruction (w a : Word) (s : State) : Result := .next (raise .illegalInstruction w a s)

/-! ## Program counter and call stack (41_control_flow.md) -/

/-- The fetch increment (40_step_cycle.md R128). -/
def fetchIncrement (s : State) : State := s.setPc (s.pc + 2)

/-- The address `A` of the executing instruction: a handler sees `pc = A + 2` (R131). -/
def instrAddr (s : State) : Word := s.pc - 2

/-- `skip` (R150). -/
def skip (s : State) : State := s.setPc (s.pc + 2)

/-- `if c: skip`. -/
def skipIf (c : Bool) (s : State) : State := if c then skip s else s

/-- The stack engine's push (R153): `none` is its answer `overflow`. -/
def push (w : Word) (s : State) : Option State :=
  if h : s.sp.val < Config.stackDepth then
    some ((s.setStack ⟨s.sp.val, h⟩ w).setSp ⟨s.sp.val + 1, Nat.succ_lt_succ h⟩)
  else none

/-- The stack engine's pop (R154): `none` is its answer `underflow`. The popped entry keeps its value. -/
def pop (s : State) : Option (Word × State) :=
  match s.sp with
  | ⟨0, _⟩ => none
  | ⟨n + 1, h⟩ => some (s.stack[n]'(Nat.lt_of_succ_lt_succ h), s.setSp ⟨n, Nat.lt_of_succ_lt h⟩)

/-! ## Register results (42_alu.md R171) -/

/-- `V[15] <- b`, the flag register. -/
def State.setVF (b : Byte) (s : State) : State := s.setV Config.flagReg b

/-- The order of a flag-writing instruction (R171): the result into `V[x]` first, the flag into `V[15]` last. -/
def writeResultFlag (x : Nib) (r f : Byte) (s : State) : State := (s.setV x r).setVF f

/-! ## Keypad (45_keypad_timers.md, 40_step_cycle.md R126) -/

/-- `K[k]`. -/
def State.key (s : State) (k : Nib) : Bool := s.K[k.val]

/-- The least pressed key, if any (R126, R237). -/
def lowestKey (s : State) : Option Nib := (List.finRange 16).find? fun k => s.key k

/-- `zext_8(k)`. -/
def keyByte (k : Nib) : Byte := BitVec.ofNat 8 k.val

/-- `complete_or_keep_waiting` (R126): a step taken while `awaiting_key = 1`. -/
def completeOrKeepWaiting (s : State) : State :=
  match lowestKey s with
  | some k => ((s.setV s.keyDest (keyByte k)).setPc (s.pc + 2)).setAwaiting false
  | none => s

/-! ## The random input (42_alu.md R184; notes/assumptions/1.md) -/

/-- `rand8()`: the byte the host lined up for this draw, or else the free value of this draw's number. -/
def drawByte (s : State) : Byte :=
  match s.rands with
  | r :: _ => r
  | [] => Config.randByte s.draws

/-- The draw is used up. -/
def afterDraw (s : State) : State := s.setRand s.rands.tail (s.draws + 1)

end Sys2Proof.Machine
end

