-- ==== Sys2Proof/Machine/Flags.lean ====
section
/-! DEFINITION. The 8-bit results and 1-bit flags of the ALU (spec/42_alu.md R170). Each is computed on integers and
narrowed at the end, so carry and borrow are comparisons of exact values (R185). -/

namespace Sys2Proof.Machine

/-- A flag is the 8-bit value 0x00 or 0x01 (10_state.md R21). -/
def flagByte (f : Bool) : Byte := if f then 1 else 0

/-- `ADD` result: `(a + b) mod 256`. -/
def aluAdd (a b : Byte) : Byte := BitVec.ofNat 8 (a.toNat + b.toNat)

/-- `ADD` flag: carry out, 1 if `a + b > 255`. -/
def carryFlag (a b : Byte) : Bool := decide (255 < a.toNat + b.toNat)

/-- `SUB` result: `(a - b) mod 256`, the non-negative remainder. -/
def aluSub (a b : Byte) : Byte := BitVec.ofNat 8 (a.toNat + 256 - b.toNat)

/-- `SUB` flag: no borrow, 1 if `a >= b`. -/
def noBorrowFlag (a b : Byte) : Bool := decide (b.toNat ≤ a.toNat)

/-- `SHR` result: `a >> 1`. -/
def aluShr (a : Byte) : Byte := BitVec.ofNat 8 (a.toNat / 2)

/-- `SHR` flag: `a[0]`. -/
def shrFlag (a : Byte) : Bool := a.getLsbD 0

/-- `SHL` result: `(a << 1) mod 256`. -/
def aluShl (a : Byte) : Byte := BitVec.ofNat 8 (a.toNat * 2)

/-- `SHL` flag: `a[7]`. -/
def shlFlag (a : Byte) : Bool := a.getLsbD 7

/-- `EQ`: 1 if `a = b`. -/
def aluEq (a b : Byte) : Bool := decide (a = b)

end Sys2Proof.Machine
end

