-- ==== Sys2Proof/Machine/Operands.lean ====
section
/-! DEFINITION. Operand forms: effective addresses, and the values a register selects (spec/43_index_memory.md R206,
R202, R203; spec/45_keypad_timers.md R238; spec/30_encoding.md R93). -/

namespace Sys2Proof.Machine

/-- `zext_16(nnn)` (R93). -/
def zextAddr (nnn : Addr12) : Word := nnn.setWidth 16

/-- `zext_16(V[x])`. -/
def zextByte (b : Byte) : Word := b.setWidth 16

/-- `V[x] AND 0x0F`: the key (R238) or glyph (R202) a register value names. -/
def lowNibble (b : Byte) : Nib := Fin.ofNat 16 b.toNat

/-- The address of glyph `V[x] AND 0x0F`: `0x0050 + 5 * d` (R202; the ALU function `GLYPH` of 42_alu.md R170). -/
def glyphAddr (b : Byte) : Word :=
  BitVec.ofNat 16 (Config.fontBase + Config.glyphBytes * (lowNibble b).val)

/-- The address of the `k`-th byte of a block, before masking: `I + k` (R206). -/
def blockAddr (i : Word) (k : Nat) : Word := i + BitVec.ofNat 16 k

/-- The hundreds digit (R203; the ALU function `BCD` of R170). -/
def bcdHundreds (a : Byte) : Byte := BitVec.ofNat 8 (a.toNat / 100)

/-- The tens digit. -/
def bcdTens (a : Byte) : Byte := BitVec.ofNat 8 (a.toNat / 10 % 10)

/-- The ones digit. -/
def bcdOnes (a : Byte) : Byte := BitVec.ofNat 8 (a.toNat % 10)

end Sys2Proof.Machine
end

