-- ==== Sys2Proof/Machine/Alu.lean ====
section
/-! DEFINITION. Register loads, arithmetic, logic, shifts and random (spec/42_alu.md). Operands are read before any
write (R171); only the five family-8 arithmetic and shift instructions write the flag (10_state.md R22). -/

namespace Sys2Proof.Machine

/-- R172 `6xnn`: `V[x] <- nn`. -/
def execLdImm (x : Nib) (nn : Byte) (s : State) : Result := .next (s.setV x nn)

/-- R173 `7xnn`: `V[x] <- (V[x] + nn) mod 256`, no flag. -/
def execAddImm (x : Nib) (nn : Byte) (s : State) : Result := .next (s.setV x (aluAdd (s.readV x) nn))

/-- R174 `8xy0`: `V[x] <- V[y]`. -/
def execLdReg (x y : Nib) (s : State) : Result := .next (s.setV x (s.readV y))

/-- R175 `8xy1`: `V[x] <- V[x] OR V[y]`, no flag. -/
def execOrReg (x y : Nib) (s : State) : Result := .next (s.setV x (s.readV x ||| s.readV y))

/-- R176 `8xy2`: `V[x] <- V[x] AND V[y]`, no flag. -/
def execAndReg (x y : Nib) (s : State) : Result := .next (s.setV x (s.readV x &&& s.readV y))

/-- R177 `8xy3`: `V[x] <- V[x] XOR V[y]`, no flag. -/
def execXorReg (x y : Nib) (s : State) : Result := .next (s.setV x (s.readV x ^^^ s.readV y))

/-- R178 `8xy4`: add, `V[15]` is the carry out. -/
def execAddReg (x y : Nib) (s : State) : Result :=
  let a := s.readV x
  let b := s.readV y
  .next (writeResultFlag x (aluAdd a b) (flagByte (carryFlag a b)) s)

/-- R179 `8xy5`: `V[x] - V[y]`, `V[15]` is 1 when no borrow. -/
def execSubReg (x y : Nib) (s : State) : Result :=
  let a := s.readV x
  let b := s.readV y
  .next (writeResultFlag x (aluSub a b) (flagByte (noBorrowFlag a b)) s)

/-- R180 `8xy6`: shift `V[x]` right by one in place, `V[15]` is the bit shifted out. -/
def execShr (x : Nib) (s : State) : Result :=
  let a := s.readV x
  .next (writeResultFlag x (aluShr a) (flagByte (shrFlag a)) s)

/-- R181 `8xy7`: `V[y] - V[x]`, `V[15]` is 1 when no borrow. -/
def execSubn (x y : Nib) (s : State) : Result :=
  let a := s.readV x
  let b := s.readV y
  .next (writeResultFlag x (aluSub b a) (flagByte (noBorrowFlag b a)) s)

/-- R182 `8xyE`: shift `V[x]` left by one in place, `V[15]` is the bit shifted out. -/
def execShl (x : Nib) (s : State) : Result :=
  let a := s.readV x
  .next (writeResultFlag x (aluShl a) (flagByte (shlFlag a)) s)

/-- R183 `Cxnn`: `V[x] <- rand8() AND nn`, and the draw is used up. -/
def execRnd (x : Nib) (nn : Byte) (s : State) : Result := .next ((afterDraw s).setV x (drawByte s &&& nn))

end Sys2Proof.Machine
end

