-- ==== Sys2Proof/Machine/Control.lean ====
section
/-! DEFINITION. Control transfer and the stack engine (spec/41_control_flow.md). A handler sees `pc = A + 2`. -/

namespace Sys2Proof.Machine

/-- R151 `1nnn`: `pc <- zext_16(nnn)`. -/
def execJp (nnn : Addr12) (s : State) : Result := .next (s.setPc (zextAddr nnn))

/-- R152 `Bnnn`: `pc <- nnn + V[0]`. -/
def execJpV0 (nnn : Addr12) (s : State) : Result := .next (s.setPc (zextAddr nnn + zextByte (s.readV 0)))

/-- R153 `2nnn`: push the incremented `pc` and jump; `StackOverflow` when 16 entries are held. -/
def execCall (nnn : Addr12) (s : State) : Result :=
  match push s.pc s with
  | some t => .next (t.setPc (zextAddr nnn))
  | none => .next (raise .stackOverflow (encode (.call nnn)) (instrAddr s) s)

/-- R154 `00EE`: pop into `pc`; `StackUnderflow` when no entry is held, with the word as fetched (R261). -/
def execRet (ign : Nib) (s : State) : Result :=
  match pop s with
  | some (w, t) => .next (t.setPc w)
  | none => .next (raise .stackUnderflow (encode (.ret ign)) (instrAddr s) s)

/-- R155 `3xnn`: skip if `V[x] = nn`. -/
def execSeImm (x : Nib) (nn : Byte) (s : State) : Result := .next (skipIf (aluEq (s.readV x) nn) s)

/-- R156 `4xnn`: skip if `V[x] != nn`. -/
def execSneImm (x : Nib) (nn : Byte) (s : State) : Result := .next (skipIf (!aluEq (s.readV x) nn) s)

/-- R157 `5xy0`: skip if `V[x] = V[y]`. -/
def execSeReg (x y : Nib) (s : State) : Result := .next (skipIf (aluEq (s.readV x) (s.readV y)) s)

/-- R158 `9xy0`: skip if `V[x] != V[y]`. -/
def execSneReg (x y : Nib) (s : State) : Result := .next (skipIf (!aluEq (s.readV x) (s.readV y)) s)

end Sys2Proof.Machine
end

