-- ==== Sys2Proof/Machine/Display.lean ====
section
/-! DEFINITION. The display buffer (spec/44_display.md). -/

namespace Sys2Proof.Machine

/-- `disp[py][px]` (10_state.md R32). -/
def pixel (d : Vector (Vector Bool 64) 32) (px : Fin 64) (py : Fin 32) : Bool := d[py.val][px.val]

/-- `disp[py][px] <- b`. -/
def setPixel (px : Fin 64) (py : Fin 32) (b : Bool) (d : Vector (Vector Bool 64) 32) :
    Vector (Vector Bool 64) 32 := d.set py.val (d[py.val].set px.val b)

/-- The all-off display. -/
def clearDisplay : Vector (Vector Bool 64) 32 := Vector.replicate 32 (Vector.replicate 64 false)

/-- R220 `00E0`: every pixel off, no flag. -/
def execCls (s : State) : Result := .next (s.setDisp clearDisplay)

/-- The column a sprite's column `c` lands on: `(x0 + c) mod 64` (R222). -/
def wrapX (x0 : Byte) (c : Nat) : Fin 64 := Fin.ofNat 64 (x0.toNat + c)

/-- The row a sprite's row `r` lands on: `(y0 + r) mod 32` (R222). -/
def wrapY (y0 : Byte) (r : Nat) : Fin 32 := Fin.ofNat 32 (y0.toNat + r)

/-- Column `c` of a row byte is bit `7 - c` (R221). -/
def spriteBit (b : Byte) (c : Nat) : Bool := b.getLsbD (7 - c)

/-- A display together with the collision found so far. -/
abbrev Canvas := Vector (Vector Bool 64) 32 × Bool

/-- One sprite pixel (R222): a 1 bit flips the display pixel and a pixel that was on is a collision. -/
def drawBit (bit : Bool) (px : Fin 64) (py : Fin 32) (c : Canvas) : Canvas :=
  if bit then
    let old := pixel c.1 px py
    (setPixel px py (!old) c.1, c.2 || old)
  else c

/-- Columns 0 to `k - 1` of one row. -/
def drawCols (b x0 : Byte) (py : Fin 32) : Nat → Canvas → Canvas
  | 0, c => c
  | k + 1, c => drawBit (spriteBit b k) (wrapX x0 k) py (drawCols b x0 py k c)

/-- Rows 0 to `k - 1` of the sprite whose row `r` is the byte `row r`. -/
def drawRows (row : Nat → Byte) (x0 y0 : Byte) : Nat → Canvas → Canvas
  | 0, c => c
  | k + 1, c => drawCols (row k) x0 (wrapY y0 k) 8 (drawRows row x0 y0 k c)

/-- R222 `Dxyn`: draw `n` rows from `I` at (`V[x]`, `V[y]`), both read before any write; `V[15]` is the collision. -/
def execDrw (x y n : Nib) (s : State) : Result :=
  let c := drawRows (fun r => memRead s (blockAddr s.I r)) (s.readV x) (s.readV y) n.val (s.disp, false)
  .next ((s.setDisp c.1).setVF (flagByte c.2))

end Sys2Proof.Machine
end

