-- ==== Sys2Proof/Machine/Index.lean ====
section
/-! DEFINITION. The index register, stores and loads (spec/43_index_memory.md). `I` is changed by no load or store
(R206). -/

namespace Sys2Proof.Machine

/-- R200 `Annn`: `I <- zext_16(nnn)`. -/
def execLdI (nnn : Addr12) (s : State) : Result := .next (s.setI (zextAddr nnn))

/-- R201 `Fx1E`: `I <- (I + V[x]) mod 65536`, no flag. -/
def execAddIVx (x : Nib) (s : State) : Result := .next (s.setI (s.I + zextByte (s.readV x)))

/-- R202 `Fx29`: `I <-` address of glyph `V[x] AND 0x0F`. -/
def execLdF (x : Nib) (s : State) : Result := .next (s.setI (glyphAddr (s.readV x)))

/-- R203 `Fx33`: three digits, hundreds at `I`, each write masked and font-checked on its own. -/
def execLdB (x : Nib) (s : State) : Result :=
  let a := s.readV x
  let s1 := memWrite (blockAddr s.I 0) (bcdHundreds a) s
  let s2 := memWrite (blockAddr s.I 1) (bcdTens a) s1
  .next (memWrite (blockAddr s.I 2) (bcdOnes a) s2)

/-- `MemWrite(I + i, 1, V[i])` for `i = 0` to `k - 1`, ascending. -/
def storeBlock : Nat → State → State
  | 0, s => s
  | k + 1, s =>
    let t := storeBlock k s
    memWrite (blockAddr t.I k) (t.readV (Fin.ofNat 16 k)) t

/-- `V[i] <- MemRead(I + i, 1)` for `i = 0` to `k - 1`, ascending. -/
def loadBlock : Nat → State → State
  | 0, s => s
  | k + 1, s =>
    let t := loadBlock k s
    t.setV (Fin.ofNat 16 k) (memRead t (blockAddr t.I k))

/-- R204 `Fx55`: store `V[0]` to `V[x]` inclusive. -/
def execStRegs (x : Nib) (s : State) : Result := .next (storeBlock (x.val + 1) s)

/-- R205 `Fx65`: load `V[0]` to `V[x]` inclusive. -/
def execLdRegs (x : Nib) (s : State) : Result := .next (loadBlock (x.val + 1) s)

end Sys2Proof.Machine
end

