-- ==== Sys2Proof/Machine/Keypad.lean ====
section
/-! DEFINITION. Keypad and timer instructions (spec/45_keypad_timers.md). -/

namespace Sys2Proof.Machine

/-- R235 `Ex9E`: skip if key `V[x] AND 0x0F` is pressed. -/
def execSkp (x : Nib) (s : State) : Result := .next (skipIf (s.key (lowNibble (s.readV x))) s)

/-- R236 `ExA1`: skip if key `V[x] AND 0x0F` is not pressed. -/
def execSknp (x : Nib) (s : State) : Result := .next (skipIf (!s.key (lowNibble (s.readV x))) s)

/-- R237 `Fx0A`: take the least pressed key at once, or undo the fetch increment and wait. -/
def execLdVxK (x : Nib) (s : State) : Result :=
  match lowestKey s with
  | some k => .next (s.setV x (keyByte k))
  | none => .next (((s.setPc (instrAddr s)).setAwaiting true).setKeyDest x)

/-- R239 `Fx07`: `V[x] <- DT`. -/
def execLdVxDt (x : Nib) (s : State) : Result := .next (s.setV x s.DT)

/-- R240 `Fx15`: `DT <- V[x]`. -/
def execLdDtVx (x : Nib) (s : State) : Result := .next (s.setDT (s.readV x))

/-- R241 `Fx18`: `ST <- V[x]`. -/
def execLdStVx (x : Nib) (s : State) : Result := .next (s.setST (s.readV x))

end Sys2Proof.Machine
end

