-- ==== Sys2Proof/Machine/Step.lean ====
section
/-! DEFINITION. The `step` event (spec/40_step_cycle.md R125), and the host's entry that places one instruction. -/

namespace Sys2Proof.Machine

/-- R125: nothing while halted (R127); completes or keeps a wait (R126); else fetch, decode, dispatch, execute. -/
def step (s : State) : Host.Outcome State Fault Refusal :=
  if s.halted then .next s
  else if s.awaitingKey then .next (completeOrKeepWaiting s)
  else
    match decodeWord (fetchWord s) with
    | .ok i => exec i (fetchIncrement s)
    | .error _ => illegalInstruction (fetchWord s) s.pc (fetchIncrement s)

/-- `s` with the instruction word `w` (bit 0 least significant, bits at or above `nbits` zero) stored at the masked
addresses of `pc` and `pc + 1`, high byte first, and with neither a halt nor a wait in the way of the fetch. It stands
for a program loaded from outside (notes/assumptions/4.md), so the bytes are placed even in the font region. -/
def State.withFetchWord (s : State) (nbits w : Nat) : State :=
  let word : Word := BitVec.ofNat 16 (w % 2 ^ nbits)
  let m1 := memPut s.mem (mask12 s.pc) (highByte word)
  let m2 := memPut m1 (mask12 (s.pc + 1)) (lowByte word)
  { s with mem := m2, halted := false, awaitingKey := false }

end Sys2Proof.Machine
end

