-- ==== Sys2Proof/Machine/Events.lean ====
section
/-! DEFINITION. The events other than `step`, a run as a list of events, and the outputs (spec/00_scope.md R11;
spec/40_step_cycle.md R121 to R124, R133; spec/10_state.md R33; spec/70_reset_and_hazards.md R291 to R293). -/

namespace Sys2Proof.Machine

/-- One count of a timer (45_keypad_timers.md R243): a timer at 0 stays at 0. -/
def countDown (t : Byte) : Byte := if 0 < t.toNat then BitVec.ofNat 8 (t.toNat - 1) else t

/-- The `tick` event (R243), legal in every state. -/
def tick (s : State) : State := (s.setDT (countDown s.DT)).setST (countDown s.ST)

/-- The `set_keys(k)` event (R124): `K[j] <- k[j]` for all `j`. -/
def setKeys (k : BitVec 16) (s : State) : State := s.setK (Vector.ofFn fun j => k.getLsbD j.val)

/-- Bytes placed at consecutive addresses from `a`. -/
def placeBytes : List Byte → Nat → List Host.Cell → List Host.Cell
  | [], _, m => m
  | b :: bs, a, m => placeBytes bs (a + 1) (memPut m a b)

/-- The `load(bytes)` event (R292): memory only; too long an image raises `RomTooLarge` and writes none of it (R293). -/
def load (bytes : List Byte) (s : State) : State :=
  if Config.maxRom < bytes.length then raise .romTooLarge 0 0 s
  else s.setMem (placeBytes bytes Config.progBase s.mem)

/-- The `reset` event (R290, R291): every piece of the spec's state takes its reset value. The draws the host lines up
and their number are not the machine's and go on (notes/assumptions/2.md). -/
def resetEvent (s : State) : State := State.reset.setRand s.rands s.draws

/-- The `step` event with the byte on the `rand` input (R132): the byte is there for this step alone. -/
def stepWith (rand : Byte) (s : State) : Result :=
  match step { s with rands := rand :: s.rands } with
  | .next t => .next { t with rands := s.rands }
  | .fault f => .fault f
  | .refused r => .refused r

/-- The five events (R11, R122). -/
inductive Event where
  | reset
  | load (bytes : List Byte)
  | setKeys (k : BitVec 16)
  | tick
  | step (rand : Byte)
deriving DecidableEq, Repr

/-- One event. -/
def applyEvent (e : Event) (s : State) : Result :=
  match e with
  | .reset => .next (resetEvent s)
  | .load bytes => .next (load bytes s)
  | .setKeys k => .next (setKeys k s)
  | .tick => .next (tick s)
  | .step rand => stepWith rand s

/-- A finite schedule of events, in order (R121). -/
def runEvents : List Event → State → Result
  | [], s => .next s
  | e :: es, s =>
    match applyEvent e s with
    | .next t => runEvents es t
    | .fault f => .fault f
    | .refused r => .refused r

/-- Strobes presented together (R133; 60_exceptions.md R266): `set_keys`, then `step`, then `tick`, each if present. -/
def cycle (keys : Option (BitVec 16)) (rand : Option Byte) (ticked : Bool) (s : State) : Result :=
  let es := (keys.map Event.setKeys).toList ++ (rand.map Event.step).toList ++ (if ticked then [Event.tick] else [])
  runEvents es s

/-! ## Outputs (10_state.md R33) -/

/-- `sound_active` (R28; 45_keypad_timers.md R244). -/
def soundActive (s : State) : Bool := s.ST != 0

/-- `disp_q` at (`disp_px`, `disp_py`): no side effect (44_display.md R224). -/
def dispQ (s : State) (px : Fin 64) (py : Fin 32) : Bool := pixel s.disp px py

/-- The output ports other than the display's. -/
structure Outputs where
  soundActive : Bool
  awaitingKey : Bool
  halted : Bool
  errCode : BitVec 3
  errInstr : Word
  errPc : Word
deriving DecidableEq, Repr

/-- What the host sees on the output ports between two events. -/
def outputs (s : State) : Outputs :=
  ⟨soundActive s, s.awaitingKey, s.halted, s.errCode, s.errInstr, s.errPc⟩

end Sys2Proof.Machine
end

