-- ==== Sys2Proof/Safety.lean ====
section
/-! DEFINITION. The words claims are stated in: a safe state, the invariants, reachability, and the tables of who reads
and writes what (spec/10_state.md R22, R24 to R32, R37; spec/20_memory.md R69) as data. -/

namespace Sys2Proof.Machine

/-- A safe state: no fatal error has been latched (10_state.md R31). -/
def State.safe (s : State) : Bool := !s.halted

/-- Some schedule of events leads from the reset state to `s` (40_step_cycle.md R121). -/
def Reachable (s : State) : Prop := ∃ es, runEvents es State.reset = .next s

/-- The font is as `reset` loaded it (20_memory.md R63: "immutable after initialization"). -/
def FontIntact (s : State) : Prop := ∀ a, inFont a = true → memGet s.mem a = blank a

/-- The report names an error exactly when the core is halted, and codes 5 to 7 are never produced
(60_exceptions.md R260). -/
def LatchConsistent (s : State) : Prop := (s.halted = true ↔ s.errCode ≠ 0) ∧ s.errCode.toNat ≤ 4

/-- What every event keeps. -/
structure EventInv (s : State) : Prop where
  memory : memWf s.mem = true
  font : FontIntact s
  latch : LatchConsistent s

/-- What every `step` keeps besides: a waiting core is not halted and `pc` holds the address of the suspended `Fx0A`
(10_state.md R30; 40_step_cycle.md R127). A `load` can break it, so it is no invariant of every event. -/
structure StepInv (s : State) : Prop where
  base : EventInv s
  waiting : s.awaitingKey = true → s.halted = false ∧ decodeWord (fetchWord s) = .ok (.ldVxK s.keyDest)

end Sys2Proof.Machine

namespace Sys2Proof

/-- The registers `0` to `x` inclusive. -/
def regsUpTo (x : Nib) : List Nib := (List.finRange 16).filter fun r => decide (r ≤ x)

/-- R22, column "reads". -/
def Instr.readsV : Instr → List Nib
  | .seImm x _ | .sneImm x _ | .addImm x _ | .shr x _ | .shl x _ => [x]
  | .seReg x y _ | .sneReg x y _ => [x, y]
  | .ldReg _ y => [y]
  | .orReg x y | .andReg x y | .xorReg x y | .addReg x y | .subReg x y | .subn x y => [x, y]
  | .jpV0 _ => [0]
  | .drw x y _ => [x, y]
  | .skp x | .sknp x | .ldDtVx x | .ldStVx x | .addIVx x | .ldF x | .ldB x => [x]
  | .stRegs x => regsUpTo x
  | .ldImm _ _ | .rnd _ _ | .ldVxDt _ | .ldVxK _ | .ldRegs _ | .cls _ | .ret _ | .jp _ | .call _ | .ldI _ => []

/-- R22, column "writes". -/
def Instr.writesV : Instr → List Nib
  | .ldImm x _ | .addImm x _ | .ldReg x _ | .orReg x _ | .andReg x _ | .xorReg x _ | .rnd x _ | .ldVxDt x
  | .ldVxK x => [x]
  | .addReg x _ | .subReg x _ | .subn x _ | .shr x _ | .shl x _ => [x, 15]
  | .drw _ _ _ => [15]
  | .ldRegs x => regsUpTo x
  | .seImm _ _ | .sneImm _ _ | .seReg _ _ _ | .sneReg _ _ _ | .jpV0 _ | .skp _ | .sknp _ | .ldDtVx _ | .ldStVx _
  | .addIVx _ | .ldF _ | .ldB _ | .stRegs _ | .cls _ | .ret _ | .jp _ | .call _ | .ldI _ => []

/-- R69, column "writes": how many bytes the instruction stores, from `I` upward. -/
def Instr.storedBytes : Instr → Nat
  | .ldB _ => 3
  | .stRegs x => x.val + 1
  | .cls _ | .ret _ | .jp _ | .call _ | .seImm _ _ | .sneImm _ _ | .seReg _ _ _ | .ldImm _ _ | .addImm _ _
  | .ldReg _ _ | .orReg _ _ | .andReg _ _ | .xorReg _ _ | .addReg _ _ | .subReg _ _ | .shr _ _ | .subn _ _
  | .shl _ _ | .sneReg _ _ _ | .ldI _ | .jpV0 _ | .rnd _ _ | .drw _ _ _ | .skp _ | .sknp _ | .ldVxDt _ | .ldVxK _
  | .ldDtVx _ | .ldStVx _ | .addIVx _ | .ldF _ | .ldRegs _ => 0

end Sys2Proof

namespace Sys2Proof.Machine

/-- Every byte of memory reads in `t` as it reads in `s`. -/
def SameMemory (s t : State) : Prop := ∀ a : Word, memRead t a = memRead s a

/-- Memory reads in `t` as in `s` outside the bytes `I` to `I + k - 1` (each masked, R69). -/
def SameMemoryOutside (k : Nat) (s t : State) : Prop :=
  ∀ a : Word, (∀ j < k, mask12 a ≠ mask12 (blockAddr s.I j)) → memRead t a = memRead s a

/-- Display pixel (`px`, `py`) is drawn by a 1 bit of the `n`-row sprite at `I`, started at (`V[x]`, `V[y]`)
(44_display.md R221, R222: row `r` is the byte at `I + r`, column `c` its bit `7 - c`, both axes wrap). -/
def SpriteCovers (s : State) (x y n : Nib) (px : Fin 64) (py : Fin 32) : Prop :=
  ∃ r < n.val, ∃ c < 8, (memRead s (s.I + BitVec.ofNat 16 r)).getLsbD (7 - c) = true ∧
    px.val = ((s.readV x).toNat + c) % 64 ∧ py.val = ((s.readV y).toNat + r) % 32

end Sys2Proof.Machine
end

