-- ==== Sys2Proof/Certificates/Slice0/Obligations.lean ====
section
/-! DEFINITION. The statements for the provers, each with the rules of spec/ it formalises. -/

open Sys2Proof Sys2Proof.Machine

/-- For every instruction with every operand (the ignored nibbles of R96 included) and any bytes after it, decoding the
two bytes of its encoding, high byte first, gives that instruction and leaves the bytes after it. [30_encoding.md
section 1, 30_encoding.md section 3, 20_memory.md R64] -/
def Obligations.DecodeInvertsEncode : Prop :=
    ∀ (i : Instr) (rest : List Byte), decode (encodeBytes i ++ rest) = .ok (i, rest)

/-- For every 16-bit word, if the decoder reads instruction i from it, then the encoding of i is that word: no bit of a
legal word is dropped, the ignored bits of R96 included (the model keeps them, log 7). [30_encoding.md section 1,
30_encoding.md section 3] -/
def Obligations.EncodeInvertsDecode : Prop :=
    ∀ (w : Word) (i : Instr), decodeWord w = .ok i → encode i = w

/-- A word that decodes to i satisfies word AND mask = match for the row of i; a word that satisfies it for a row
decodes to an instruction of that row; no word matches two rows; the table has 34 rows, all different.
[30_encoding.md section 3] -/
def Obligations.OpcodeTableSelectsTheInstruction : Prop :=
    (∀ (w : Word) (i : Instr), decodeWord w = .ok i → w &&& i.row.mask = i.row.value) ∧
    (∀ (w : Word) (i : Instr), w &&& i.row.mask = i.row.value → ∃ j, decodeWord w = .ok j ∧ j.row = i.row) ∧
    (∀ (w : Word) (i j : Instr), w &&& i.row.mask = i.row.value → w &&& j.row.mask = j.row.value → i.row = j.row) ∧
    opcodeTable.length = 34 ∧ opcodeTable.Nodup

/-- A word is rejected exactly when op is 0 and nn is neither 0xE0 nor 0xEE, or op is 8 and n is one of 8 to 0xD or 0xF,
or op is 0xE and nn is neither 0x9E nor 0xA1, or op is 0xF and nn is none of the nine sub-opcodes (the conditions of
R97; its counts are not stated here). [30_encoding.md section 4] -/
def Obligations.IllegalWordsAreExactlyTheListed : Prop :=
    ∀ w : Word, (∃ e, decodeWord w = .error e) ↔
    (fieldOp w = 0x0 ∧ fieldNN w ≠ 0xE0 ∧ fieldNN w ≠ 0xEE) ∨
    (fieldOp w = 0x8 ∧ fieldN w ∈ ([0x8, 0x9, 0xA, 0xB, 0xC, 0xD, 0xF] : List Nib)) ∨
    (fieldOp w = 0xE ∧ fieldNN w ≠ 0x9E ∧ fieldNN w ≠ 0xA1) ∨
    (fieldOp w = 0xF ∧ fieldNN w ∉ ([0x07, 0x0A, 0x15, 0x18, 0x1E, 0x29, 0x33, 0x55, 0x65] : List Byte))

/-- The words 0x6A12, 0xD125, 0x0AE0, 0x07EE, 0x8AB6, 0x8127, 0xE1A1, 0xFF65 and 0x1ABC decode to the instructions the
spec's vectors name, and 0x0000, 0x0123, 0x8128, 0xE19F, 0xF075 are illegal. [95_test_vectors.md section 2.1,
30_encoding.md section 6] -/
def Obligations.WordsOfTheSpecDecode : Prop :=
    decodeWord 0x6A12 = .ok (.ldImm 0xA 0x12) ∧ decodeWord 0xD125 = .ok (.drw 1 2 5) ∧
    decodeWord 0x0AE0 = .ok (.cls 0xA) ∧ decodeWord 0x07EE = .ok (.ret 7) ∧ decodeWord 0x8AB6 = .ok (.shr 0xA 0xB) ∧
    decodeWord 0x8127 = .ok (.subn 1 2) ∧ decodeWord 0xE1A1 = .ok (.sknp 1) ∧ decodeWord 0xFF65 = .ok (.ldRegs 0xF) ∧
    decodeWord 0x1ABC = .ok (.jp 0xABC) ∧ decodeWord 0x0000 = .error .family0 ∧ decodeWord 0x0123 = .error .family0 ∧
    decodeWord 0x8128 = .error .family8 ∧ decodeWord 0xE19F = .error .familyE ∧ decodeWord 0xF075 = .error .familyF

/-- For every word, op, x, y, n, nn and nnn are the values of R91's extraction formulas, nn is the concatenation of y
and n, nnn that of x, y and n, and the example 0x6A12 has family 6, x = 0xA, nn = 0x12. [R91] -/
def Obligations.FieldsAreTheMaskedSlices : Prop :=
    (∀ w : Word,
      (fieldOp w).val = ((w &&& 0xF000#16) >>> 12).toNat ∧ (fieldX w).val = ((w &&& 0x0F00#16) >>> 8).toNat ∧
      (fieldY w).val = ((w &&& 0x00F0#16) >>> 4).toNat ∧ (fieldN w).val = (w &&& 0x000F#16).toNat ∧
      (fieldNN w).toNat = (w &&& 0x00FF#16).toNat ∧ (fieldNNN w).toNat = (w &&& 0x0FFF#16).toNat ∧
      (fieldNN w).toNat = 16 * (fieldY w).val + (fieldN w).val ∧
      (fieldNNN w).toNat = 256 * (fieldX w).val + 16 * (fieldY w).val + (fieldN w).val) ∧
    fieldOp 0x6A12 = 6 ∧ fieldX 0x6A12 = 0xA ∧ fieldNN 0x6A12 = 0x12

/-- 00E0, 5xy0, 9xy0, 8xy6 and 8xyE do the same whatever their ignored nibble, and so does 00EE when the stack is not
empty (on an empty stack its fault report holds the word as fetched, R261). [30_encoding.md section 3,
92_eei_decisions.md D13] -/
def Obligations.IgnoredBitsSelectNothing : Prop :=
    ∀ (x y a b : Nib) (s : State),
    exec (.cls a) s = exec (.cls b) s ∧ exec (.seReg x y a) s = exec (.seReg x y b) s ∧
    exec (.sneReg x y a) s = exec (.sneReg x y b) s ∧ exec (.shr x a) s = exec (.shr x b) s ∧
    exec (.shl x a) s = exec (.shl x b) s ∧ (0 < s.sp.val → exec (.ret a) s = exec (.ret b) s)

/-- A step of a halted core changes nothing; else a step of a waiting core is complete_or_keep_waiting; else, with instr
the two bytes at pc, the step is exec of the decoded instruction at the state with pc advanced by 2, or, where no
handler exists, it latches IllegalInstruction with instr and A and leaves pc = A + 2. [R125] -/
def Obligations.StepRunsTheDecodedInstruction : Prop :=
    ∀ s : State,
    (s.halted = true → step s = .next s) ∧
    (s.halted = false → s.awaitingKey = true → step s = .next (completeOrKeepWaiting s)) ∧
    (s.halted = false → s.awaitingKey = false →
      (∀ i, decodeWord (fetchWord s) = .ok i → step s = exec i { s with pc := s.pc + 2 }) ∧
      (∀ e, decodeWord (fetchWord s) = .error e →
        step s = .next { s with pc := s.pc + 2, halted := true, errCode := 4, errInstr := fetchWord s, errPc := s.pc }))

/-- The fetched word is (Mem[pc AND 0xFFF] << 8) OR Mem[(pc + 1) AND 0xFFF], so the byte at the lower address is bits 15
to 8, and a fetch at pc AND 0xFFF = 0xFFF takes its second byte from Mem[0]. [20_memory.md R64, 20_memory.md R62,
92_eei_decisions.md D5] -/
def Obligations.FetchReadsTwoMaskedBytesHighFirst : Prop :=
    ∀ s : State,
    fetchWord s = ((memRead s s.pc).setWidth 16 <<< 8 ||| (memRead s (s.pc + 1)).setWidth 16) ∧
    memRead s s.pc = memGet s.mem (s.pc.toNat % 4096) ∧
    memRead s (s.pc + 1) = memGet s.mem ((s.pc.toNat + 1) % 4096) ∧
    (s.pc.toNat % 4096 = 0xFFF → memRead s (s.pc + 1) = memGet s.mem 0)

/-- In a waiting, not halted core: if key k is pressed and no lower key is, the step writes k to V[key_dest], adds 2 to
pc, clears awaiting_key and changes nothing else; if no key is pressed it changes nothing. [40_step_cycle.md section
2, 92_eei_decisions.md D28, 92_eei_decisions.md D44] -/
def Obligations.WaitingStepTakesTheLeastKey : Prop :=
    ∀ s : State, s.halted = false → s.awaitingKey = true →
    (∀ k : Nib, s.key k = true → (∀ j < k, s.key j = false) → ∃ t, step s = .next t ∧
      (∀ r, t.readV r = if r = s.keyDest then BitVec.ofNat 8 k.val else s.readV r) ∧
      t = { s with V := t.V, pc := s.pc + 2, awaitingKey := false }) ∧
    ((∀ k, s.key k = false) → step s = .next s)

/-- In every state that meets the step invariant and is waiting, the step has the same result as the step of the same
state with awaiting_key cleared, which fetches the suspended Fx0A at pc again. [40_step_cycle.md section 2,
10_state.md section 7] -/
def Obligations.WaitingStepEqualsRefetching : Prop :=
    ∀ s : State, StepInv s → s.awaitingKey = true → step s = step { s with awaitingKey := false }

/-- From every state a step answers a next state. (That the spec's errors are next states with a latched report, and not
outcomes of the host's fault kind, is the model's form, log 5.) [60_exceptions.md section 1, 60_exceptions.md
section 2] -/
def Obligations.EveryStepAnswersANextState : Prop :=
    ∀ s : State, ∃ t, step s = .next t

/-- If a running core fetches 1nnn at address nnn, the step changes nothing at all. [40_step_cycle.md section 3] -/
def Obligations.SelfJumpIsIdle : Prop :=
    ∀ (s : State) (nnn : Addr12), s.halted = false → s.awaitingKey = false →
    decodeWord (fetchWord s) = .ok (.jp nnn) → s.pc = nnn.setWidth 16 → step s = .next s

/-- A word with op 1 decodes to the jump to its low 12 bits; the jump leaves pc equal to nnn, zero-extended (odd and
reserved targets included), and changes nothing else: no flag, no push, no fault. [R151] -/
def Obligations.JumpSetsPc : Prop :=
    (∀ w : Word, w &&& 0xF000#16 = 0x1000#16 → decodeWord w = .ok (.jp (fieldNNN w))) ∧
    ∀ (nnn : Addr12) (s : State), exec (.jp nnn) s = .next { s with pc := nnn.setWidth 16 }

/-- A word with op 0xB decodes to the jump with offset; it leaves pc equal to nnn + V[0], which never wraps and is not
masked to 12 bits, and changes nothing else. [41_control_flow.md section 2, 92_eei_decisions.md D20] -/
def Obligations.JumpWithOffsetAddsV0 : Prop :=
    (∀ w : Word, w &&& 0xF000#16 = 0xB000#16 → decodeWord w = .ok (.jpV0 (fieldNNN w))) ∧
    ∀ (nnn : Addr12) (s : State), ∃ t, exec (.jpV0 nnn) s = .next t ∧
      t.pc.toNat = nnn.toNat + (s.readV 0).toNat ∧ t = { s with pc := t.pc }

/-- With fewer than 16 entries held, the call stores pc (the return address) in stack[sp], adds 1 to sp, sets pc to nnn
and changes nothing else. With 16 held it latches code 2, its own word and its address, and changes nothing else.
[41_control_flow.md section 3, 92_eei_decisions.md D35, 60_exceptions.md section 2] -/
def Obligations.CallPushesTheReturnAddress : Prop :=
    (∀ w : Word, w &&& 0xF000#16 = 0x2000#16 → decodeWord w = .ok (.call (fieldNNN w))) ∧
    ∀ (nnn : Addr12) (s : State),
      (s.sp.val < 16 → ∃ t, exec (.call nnn) s = .next t ∧
        (∀ j : Nib, t.stack[j.val] = if j.val = s.sp.val then s.pc else s.stack[j.val]) ∧
        t.sp.val = s.sp.val + 1 ∧ t.pc = nnn.setWidth 16 ∧ t = { s with stack := t.stack, sp := t.sp, pc := t.pc }) ∧
      (s.sp.val = 16 → exec (.call nnn) s =
        .next { s with halted := true, errCode := 2, errInstr := 0x2000#16 + nnn.setWidth 16, errPc := s.pc - 2 })

/-- With an entry held, the return sets pc to stack[sp - 1], takes 1 from sp and changes nothing else (the popped entry
keeps its value). With none held it latches code 3, the word as fetched and its address, and changes nothing else.
[41_control_flow.md section 3, 92_eei_decisions.md D35, 60_exceptions.md section 2] -/
def Obligations.ReturnPopsTheReturnAddress : Prop :=
    (∀ w : Word, w &&& 0xF0FF#16 = 0x00EE#16 → decodeWord w = .ok (.ret (fieldX w))) ∧
    ∀ (ign : Nib) (s : State),
      (∀ j : Nib, s.sp.val = j.val + 1 → ∃ t, exec (.ret ign) s = .next t ∧
        t.pc = s.stack[j.val] ∧ t.sp.val = j.val ∧ t = { s with sp := t.sp, pc := t.pc }) ∧
      (s.sp.val = 0 → exec (.ret ign) s =
        .next { s with halted := true, errCode := 3, errInstr := BitVec.ofNat 16 (256 * ign.val + 0xEE), errPc := s.pc - 2 })

/-- If a running core with fewer than 16 entries held fetches a call, the step answers a next state; and if the word
fetched there is a return, the next step leaves pc at the instruction after the call and sp as it was before the
call. [41_control_flow.md section 3] -/
def Obligations.CallThenReturnResumesAfterTheCall : Prop :=
    ∀ (s : State) (nnn : Addr12), s.halted = false → s.awaitingKey = false → s.sp.val < 16 →
    decodeWord (fetchWord s) = .ok (.call nnn) → ∃ t, step s = .next t ∧
      ∀ ign, decodeWord (fetchWord t) = .ok (.ret ign) → ∃ u, step t = .next u ∧ u.pc = s.pc + 2 ∧ u.sp = s.sp

/-- Each of the four compares two 8-bit values and adds 2 to pc exactly when its condition holds; nothing else changes,
the flag register included. The words are those of masks 0xF000 with matches 0x3000, 0x4000, 0x5000, 0x9000 (the low
nibble ignored in the last two). [R155, R156, R157, R158] -/
def Obligations.SkipsCompareForEquality : Prop :=
    (∀ w : Word, (w &&& 0xF000#16 = 0x3000#16 → decodeWord w = .ok (.seImm (fieldX w) (fieldNN w))) ∧
      (w &&& 0xF000#16 = 0x4000#16 → decodeWord w = .ok (.sneImm (fieldX w) (fieldNN w))) ∧
      (w &&& 0xF000#16 = 0x5000#16 → decodeWord w = .ok (.seReg (fieldX w) (fieldY w) (fieldN w))) ∧
      (w &&& 0xF000#16 = 0x9000#16 → decodeWord w = .ok (.sneReg (fieldX w) (fieldY w) (fieldN w)))) ∧
    ∀ (x y ign : Nib) (nn : Byte) (s : State),
      exec (.seImm x nn) s = .next { s with pc := if s.readV x = nn then s.pc + 2 else s.pc } ∧
      exec (.sneImm x nn) s = .next { s with pc := if s.readV x ≠ nn then s.pc + 2 else s.pc } ∧
      exec (.seReg x y ign) s = .next { s with pc := if s.readV x = s.readV y then s.pc + 2 else s.pc } ∧
      exec (.sneReg x y ign) s = .next { s with pc := if s.readV x ≠ s.readV y then s.pc + 2 else s.pc }

/-- With k = V[x] AND 0x0F, Ex9E adds 2 to pc exactly when K[k] is 1 and ExA1 exactly when K[k] is 0; nothing else
changes. The words are those of mask 0xF0FF with matches 0xE09E and 0xE0A1. [R235, R236] -/
def Obligations.KeySkipsTestTheNamedKey : Prop :=
    (∀ w : Word, (w &&& 0xF0FF#16 = 0xE09E#16 → decodeWord w = .ok (.skp (fieldX w))) ∧
      (w &&& 0xF0FF#16 = 0xE0A1#16 → decodeWord w = .ok (.sknp (fieldX w)))) ∧
    ∀ (x k : Nib) (s : State), k.val = (s.readV x &&& 0x0F#8).toNat →
      exec (.skp x) s = .next { s with pc := if s.key k = true then s.pc + 2 else s.pc } ∧
      exec (.sknp x) s = .next { s with pc := if s.key k = false then s.pc + 2 else s.pc }

/-- A word with op 6 decodes to the load; it leaves V[x] equal to nn (x = 15 included), every other register and every
other piece of state as they were. [R172] -/
def Obligations.LoadImmediateWritesTheRegister : Prop :=
    (∀ w : Word, w &&& 0xF000#16 = 0x6000#16 → decodeWord w = .ok (.ldImm (fieldX w) (fieldNN w))) ∧
    ∀ (x : Nib) (nn : Byte) (s : State), ∃ t, exec (.ldImm x nn) s = .next t ∧
      (∀ r, t.readV r = if r = x then nn else s.readV r) ∧ t = { s with V := t.V }

/-- V[x] becomes (V[x] + nn) mod 256; every other register, V[15] included when x is not 15, and every other piece of
state are unchanged. [42_alu.md section 2, 92_eei_decisions.md D16, 90_conflicts.md C1] -/
def Obligations.AddImmediateWrapsWithoutFlag : Prop :=
    (∀ w : Word, w &&& 0xF000#16 = 0x7000#16 → decodeWord w = .ok (.addImm (fieldX w) (fieldNN w))) ∧
    ∀ (x : Nib) (nn : Byte) (s : State), ∃ t, exec (.addImm x nn) s = .next t ∧
      (t.readV x).toNat = ((s.readV x).toNat + nn.toNat) % 256 ∧
      (∀ r, r ≠ x → t.readV r = s.readV r) ∧ t = { s with V := t.V }

/-- V[x] becomes V[y], V[x] OR V[y], V[x] AND V[y] or V[x] XOR V[y]; every other register, the flag register included
when x is not 15, and every other piece of state are unchanged. The words are those of mask 0xF00F with matches
0x8000 to 0x8003. [42_alu.md section 3, 92_eei_decisions.md D14, 92_eei_decisions.md D17] -/
def Obligations.CopyAndLogicWriteOneRegister : Prop :=
    (∀ w : Word, (w &&& 0xF00F#16 = 0x8000#16 → decodeWord w = .ok (.ldReg (fieldX w) (fieldY w))) ∧
      (w &&& 0xF00F#16 = 0x8001#16 → decodeWord w = .ok (.orReg (fieldX w) (fieldY w))) ∧
      (w &&& 0xF00F#16 = 0x8002#16 → decodeWord w = .ok (.andReg (fieldX w) (fieldY w))) ∧
      (w &&& 0xF00F#16 = 0x8003#16 → decodeWord w = .ok (.xorReg (fieldX w) (fieldY w)))) ∧
    ∀ (x y : Nib) (s : State),
      (∃ t, exec (.ldReg x y) s = .next t ∧ t = { s with V := t.V } ∧
        ∀ r, t.readV r = if r = x then s.readV y else s.readV r) ∧
      (∃ t, exec (.orReg x y) s = .next t ∧ t = { s with V := t.V } ∧
        ∀ r, t.readV r = if r = x then s.readV x ||| s.readV y else s.readV r) ∧
      (∃ t, exec (.andReg x y) s = .next t ∧ t = { s with V := t.V } ∧
        ∀ r, t.readV r = if r = x then s.readV x &&& s.readV y else s.readV r) ∧
      (∃ t, exec (.xorReg x y) s = .next t ∧ t = { s with V := t.V } ∧
        ∀ r, t.readV r = if r = x then s.readV x ^^^ s.readV y else s.readV r)

/-- With a and b the old V[x] and V[y] (also when x or y is 15 or x = y): V[15] becomes 1 if a + b > 255 and else 0;
V[x], when x is not 15, becomes (a + b) mod 256; every other register and every other piece of state are unchanged.
[42_alu.md section 3, 42_alu.md section 1, 92_eei_decisions.md D15] -/
def Obligations.AddSetsTheCarryLast : Prop :=
    (∀ w : Word, w &&& 0xF00F#16 = 0x8004#16 → decodeWord w = .ok (.addReg (fieldX w) (fieldY w))) ∧
    ∀ (x y : Nib) (s : State), ∃ t, exec (.addReg x y) s = .next t ∧
      t.readV 15 = (if 255 < (s.readV x).toNat + (s.readV y).toNat then 1 else 0) ∧
      (x ≠ 15 → (t.readV x).toNat = ((s.readV x).toNat + (s.readV y).toNat) % 256) ∧
      (∀ r, r ≠ x → r ≠ 15 → t.readV r = s.readV r) ∧ t = { s with V := t.V }

/-- 8xy5 computes V[x] - V[y] and 8xy7 computes V[y] - V[x] into V[x], modulo 256; then V[15] becomes 1 if the minuend
is at least the subtrahend (equality included) and else 0; with x = 15 the flag wins; every other register and every
other piece of state are unchanged. [42_alu.md section 3, 42_alu.md section 1, 92_eei_decisions.md D15,
92_eei_decisions.md D19] -/
def Obligations.SubtractsFlagNoBorrowLast : Prop :=
    (∀ w : Word, (w &&& 0xF00F#16 = 0x8005#16 → decodeWord w = .ok (.subReg (fieldX w) (fieldY w))) ∧
      (w &&& 0xF00F#16 = 0x8007#16 → decodeWord w = .ok (.subn (fieldX w) (fieldY w)))) ∧
    ∀ (x y : Nib) (s : State),
      (∃ t, exec (.subReg x y) s = .next t ∧
        t.readV 15 = (if (s.readV y).toNat ≤ (s.readV x).toNat then 1 else 0) ∧
        (x ≠ 15 → ((t.readV x).toNat : Int) = (((s.readV x).toNat : Int) - (s.readV y).toNat) % 256) ∧
        (∀ r, r ≠ x → r ≠ 15 → t.readV r = s.readV r) ∧ t = { s with V := t.V }) ∧
      (∃ t, exec (.subn x y) s = .next t ∧
        t.readV 15 = (if (s.readV x).toNat ≤ (s.readV y).toNat then 1 else 0) ∧
        (x ≠ 15 → ((t.readV x).toNat : Int) = (((s.readV y).toNat : Int) - (s.readV x).toNat) % 256) ∧
        (∀ r, r ≠ x → r ≠ 15 → t.readV r = s.readV r) ∧ t = { s with V := t.V })

/-- 8xy6 leaves V[x] = a >> 1 and V[15] = a[0], 8xyE leaves V[x] = (a << 1) mod 256 and V[15] = a[7], with a the old
V[x]; the y nibble is not looked at; with x = 15 the flag wins; every other register and every other piece of state
are unchanged. [42_alu.md section 3, 92_eei_decisions.md D18, 92_eei_decisions.md D15] -/
def Obligations.ShiftsFlagTheBitShiftedOut : Prop :=
    (∀ w : Word, (w &&& 0xF00F#16 = 0x8006#16 → decodeWord w = .ok (.shr (fieldX w) (fieldY w))) ∧
      (w &&& 0xF00F#16 = 0x800E#16 → decodeWord w = .ok (.shl (fieldX w) (fieldY w)))) ∧
    ∀ (x ign : Nib) (s : State),
      (∃ t, exec (.shr x ign) s = .next t ∧
        t.readV 15 = (if (s.readV x)[0] then 1 else 0) ∧ (x ≠ 15 → t.readV x = s.readV x >>> 1) ∧
        (∀ r, r ≠ x → r ≠ 15 → t.readV r = s.readV r) ∧ t = { s with V := t.V }) ∧
      (∃ t, exec (.shl x ign) s = .next t ∧
        t.readV 15 = (if (s.readV x)[7] then 1 else 0) ∧ (x ≠ 15 → t.readV x = s.readV x <<< 1) ∧
        (∀ r, r ≠ x → r ≠ 15 → t.readV r = s.readV r) ∧ t = { s with V := t.V })

/-- exec of Cxnn leaves V[x] = rand8() AND nn, so V[x] AND NOT nn is 0, uses up one draw (the model's own fields rands
and draws, a DESIGN CHOICE of log 1 and no rule of the spec), and changes nothing else; and the step event given the
byte rand leaves V[x] = rand AND nn for every rand. [42_alu.md R183, 42_alu.md R184, 40_step_cycle.md R132] -/
def Obligations.RandomByteIsMasked : Prop :=
    (∀ w : Word, w &&& 0xF000#16 = 0xC000#16 → decodeWord w = .ok (.rnd (fieldX w) (fieldNN w))) ∧
    (∀ (x : Nib) (nn : Byte) (s : State), ∃ t, exec (.rnd x nn) s = .next t ∧
      (∀ r, t.readV r = if r = x then drawByte s &&& nn else s.readV r) ∧ t.readV x &&& ~~~nn = 0 ∧
      t = { s with V := t.V, rands := s.rands.tail, draws := s.draws + 1 }) ∧
    ∀ (x : Nib) (nn rand : Byte) (s : State), s.halted = false → s.awaitingKey = false →
      decodeWord (fetchWord s) = .ok (.rnd x nn) → ∃ t, stepWith rand s = .next t ∧
        (∀ r, t.readV r = if r = x then rand &&& nn else s.readV r) ∧
        t = { s with V := t.V, pc := s.pc + 2, draws := s.draws + 1 }

/-- If the core is halted, or waiting, or the fetched word is not Cxnn, the step event has the same result for any two
random bytes. [42_alu.md section 4, 40_step_cycle.md section 2] -/
def Obligations.StepIgnoresRandUnlessRnd : Prop :=
    ∀ (s : State) (r1 r2 : Byte),
    (s.halted = true ∨ s.awaitingKey = true ∨ ∀ x nn, decodeWord (fetchWord s) ≠ .ok (.rnd x nn)) →
    stepWith r1 s = stepWith r2 s

/-- A word with op 0xA decodes to the set-index instruction; it leaves I equal to nnn, zero-extended, and changes
nothing else. [R200] -/
def Obligations.SetIndexLoadsTheAddress : Prop :=
    (∀ w : Word, w &&& 0xF000#16 = 0xA000#16 → decodeWord w = .ok (.ldI (fieldNNN w))) ∧
    ∀ (nnn : Addr12) (s : State), exec (.ldI nnn) s = .next { s with I := nnn.setWidth 16 }

/-- Fx1E leaves I = (I + V[x]) mod 65536 and Fx29 leaves I = 0x050 + 5 * (V[x] AND 0x0F); neither changes anything else.
[43_index_memory.md section 2, 92_eei_decisions.md D21, 92_eei_decisions.md D22] -/
def Obligations.IndexAddAndGlyphAddress : Prop :=
    (∀ w : Word, (w &&& 0xF0FF#16 = 0xF01E#16 → decodeWord w = .ok (.addIVx (fieldX w))) ∧
      (w &&& 0xF0FF#16 = 0xF029#16 → decodeWord w = .ok (.ldF (fieldX w)))) ∧
    ∀ (x : Nib) (s : State),
      (∃ t, exec (.addIVx x) s = .next t ∧ t.I.toNat = (s.I.toNat + (s.readV x).toNat) % 65536 ∧ t = { s with I := t.I }) ∧
      (∃ t, exec (.ldF x) s = .next t ∧ t.I.toNat = 0x050 + 5 * (s.readV x &&& 0x0F#8).toNat ∧ t = { s with I := t.I })

/-- Each of the three masked addresses reads as its digit of V[x] afterwards, or as before where it lies in 0x050 to
0x09F; every other byte of memory and every other piece of state are unchanged. [43_index_memory.md section 3,
92_eei_decisions.md D24, 20_memory.md section 2] -/
def Obligations.BcdStoresThreeDigits : Prop :=
    (∀ w : Word, w &&& 0xF0FF#16 = 0xF033#16 → decodeWord w = .ok (.ldB (fieldX w))) ∧
    ∀ (x : Nib) (s : State), ∃ t, exec (.ldB x) s = .next t ∧ t = { s with mem := t.mem } ∧
      (∀ (j : Nat) (d : Nat), (j = 0 ∧ d = (s.readV x).toNat / 100 ∨ j = 1 ∧ d = (s.readV x).toNat / 10 % 10 ∨
          j = 2 ∧ d = (s.readV x).toNat % 10) →
        memRead t (blockAddr s.I j) =
          if inFont (mask12 (blockAddr s.I j)) then memRead s (blockAddr s.I j) else BitVec.ofNat 8 d) ∧
      SameMemoryOutside 3 s t

/-- For every register j from 0 to x, the masked address of I + j reads as V[j] afterwards, or as before where it lies
in the font; every other byte of memory and every other piece of state, I included, are unchanged.
[43_index_memory.md section 3, 92_eei_decisions.md D23, 20_memory.md section 2] -/
def Obligations.StoreBlockWritesTheRegisters : Prop :=
    (∀ w : Word, w &&& 0xF0FF#16 = 0xF055#16 → decodeWord w = .ok (.stRegs (fieldX w))) ∧
    ∀ (x : Nib) (s : State), ∃ t, exec (.stRegs x) s = .next t ∧ t = { s with mem := t.mem } ∧
      (∀ j : Nib, j ≤ x → memRead t (blockAddr s.I j.val) =
        if inFont (mask12 (blockAddr s.I j.val)) then memRead s (blockAddr s.I j.val) else s.readV j) ∧
      SameMemoryOutside (x.val + 1) s t

/-- For every register j from 0 to x, V[j] is the byte at the masked address I + j afterwards; every other register,
memory, I and every other piece of state are unchanged. [43_index_memory.md section 4, 92_eei_decisions.md D23] -/
def Obligations.LoadBlockReadsMemory : Prop :=
    (∀ w : Word, w &&& 0xF0FF#16 = 0xF065#16 → decodeWord w = .ok (.ldRegs (fieldX w))) ∧
    ∀ (x : Nib) (s : State), ∃ t, exec (.ldRegs x) s = .next t ∧ t = { s with V := t.V } ∧
      ∀ j : Nib, t.readV j = if j ≤ x then memGet s.mem ((s.I.toNat + j.val) % 4096) else s.readV j

/-- After MemWrite(a, 1, v), a read at b returns v when a and b agree modulo 4096 and lie outside 0x050 to 0x09F, and
returns what it returned before in every other case; nothing but memory changes. [20_memory.md section 2,
92_eei_decisions.md D5, 92_eei_decisions.md D6] -/
def Obligations.StoresAreMaskedAndSpareTheFont : Prop :=
    ∀ (a b : Word) (v : Byte) (s : State),
    memRead (memWrite a v s) b =
      (if a.toNat % 4096 = b.toNat % 4096 ∧ ¬ (0x050 ≤ a.toNat % 4096 ∧ a.toNat % 4096 ≤ 0x09F) then v
        else memRead s b) ∧
    memWrite a v s = { s with mem := (memWrite a v s).mem }

/-- The words of mask 0xF0FF and match 0x00E0 clear the display: afterwards all 2048 pixels are 0 and nothing else, the
flag register included, has changed. [R220] -/
def Obligations.ClearDisplayTurnsEveryPixelOff : Prop :=
    (∀ w : Word, w &&& 0xF0FF#16 = 0x00E0#16 → decodeWord w = .ok (.cls (fieldX w))) ∧
    ∀ (ign : Nib) (s : State), ∃ t, exec (.cls ign) s = .next t ∧
      (∀ px py, pixel t.disp px py = false) ∧ t = { s with disp := t.disp }

/-- After the draw a pixel is flipped when some 1 bit of the n rows at I lands on it (columns modulo 64, rows modulo 32)
and unchanged otherwise; V[15] is 1 if some covered pixel was on before and else 0 (n = 0 draws nothing and gives
0); every other register and every other piece of state, I and memory included, are unchanged. [44_display.md R221,
44_display.md R222, 92_eei_decisions.md D25] -/
def Obligations.DrawXorsWrapsAndFlagsCollision : Prop :=
    (∀ w : Word, w &&& 0xF000#16 = 0xD000#16 → decodeWord w = .ok (.drw (fieldX w) (fieldY w) (fieldN w))) ∧
    ∀ (x y n : Nib) (s : State), ∃ t, exec (.drw x y n) s = .next t ∧
      (∀ px py, (SpriteCovers s x y n px py → pixel t.disp px py = !pixel s.disp px py) ∧
        (¬ SpriteCovers s x y n px py → pixel t.disp px py = pixel s.disp px py)) ∧
      ((∃ px py, SpriteCovers s x y n px py ∧ pixel s.disp px py = true) → t.readV 15 = 1) ∧
      ((∀ px py, SpriteCovers s x y n px py → pixel s.disp px py = false) → t.readV 15 = 0) ∧
      (∀ r, r ≠ 15 → t.readV r = s.readV r) ∧ t = { s with V := t.V, disp := t.disp }

/-- Let the first draw end in t, and let t' have t's display and the same coordinates, index and memory as before the
first draw. Then the second draw restores the display; and if the covered pixels were off at first, the first draw
leaves V[15] = 0 and the second leaves V[15] = 1 exactly when the sprite has a 1 bit. [44_display.md R223,
90_conflicts.md C2] -/
def Obligations.DrawingTwiceRestoresTheDisplay : Prop :=
    ∀ (x y n : Nib) (s : State), ∃ t, exec (.drw x y n) s = .next t ∧
    ∀ t' : State, t'.disp = t.disp → t'.I = s.I → SameMemory s t' → t'.readV x = s.readV x → t'.readV y = s.readV y →
      ∃ u, exec (.drw x y n) t' = .next u ∧ u.disp = s.disp ∧
        ((∀ px py, SpriteCovers s x y n px py → pixel s.disp px py = false) →
          t.readV 15 = 0 ∧
          (u.readV 15 = 1 ↔ ∃ r < n.val, memRead s (s.I + BitVec.ofNat 16 r) ≠ 0) ∧
          (u.readV 15 = 0 ↔ ∀ r < n.val, memRead s (s.I + BitVec.ofNat 16 r) = 0))

/-- If key k is pressed and no lower key is, Fx0A completes: V[x] becomes k and nothing else changes. If no key is
pressed, pc goes back by 2, awaiting_key becomes 1, key_dest becomes x, and nothing else changes.
[45_keypad_timers.md R237, 92_eei_decisions.md D28] -/
def Obligations.WaitForKeyTakesTheLeastPressedKey : Prop :=
    (∀ w : Word, w &&& 0xF0FF#16 = 0xF00A#16 → decodeWord w = .ok (.ldVxK (fieldX w))) ∧
    ∀ (x : Nib) (s : State),
      (∀ k : Nib, s.key k = true → (∀ j < k, s.key j = false) → ∃ t, exec (.ldVxK x) s = .next t ∧
        (∀ r, t.readV r = if r = x then BitVec.ofNat 8 k.val else s.readV r) ∧ t = { s with V := t.V }) ∧
      ((∀ k, s.key k = false) →
        exec (.ldVxK x) s = .next { s with pc := s.pc - 2, awaitingKey := true, keyDest := x })

/-- Fx07 leaves V[x] = DT, Fx15 leaves DT = V[x], Fx18 leaves ST = V[x] with sound_active 1 exactly when the value is
nonzero; none changes anything else. The words are those of mask 0xF0FF with matches 0xF007, 0xF015, 0xF018. [R239,
R240, R241] -/
def Obligations.TimerInstructionsMoveOneByte : Prop :=
    (∀ w : Word, (w &&& 0xF0FF#16 = 0xF007#16 → decodeWord w = .ok (.ldVxDt (fieldX w))) ∧
      (w &&& 0xF0FF#16 = 0xF015#16 → decodeWord w = .ok (.ldDtVx (fieldX w))) ∧
      (w &&& 0xF0FF#16 = 0xF018#16 → decodeWord w = .ok (.ldStVx (fieldX w)))) ∧
    ∀ (x : Nib) (s : State),
      (∃ t, exec (.ldVxDt x) s = .next t ∧ (∀ r, t.readV r = if r = x then s.DT else s.readV r) ∧ t = { s with V := t.V }) ∧
      exec (.ldDtVx x) s = .next { s with DT := s.readV x } ∧
      (∃ t, exec (.ldStVx x) s = .next t ∧ t = { s with ST := s.readV x } ∧
        (soundActive t = true ↔ s.readV x ≠ 0))

/-- For all 34 instructions: when exec answers a next state, every register outside R22's column of written registers is
unchanged. [10_state.md R22] -/
def Obligations.RegistersWrittenAreTheListed : Prop :=
    ∀ (i : Instr) (s t : State), exec i s = .next t → ∀ r : Nib, r ∉ i.writesV → t.readV r = s.readV r

/-- For all 34 instructions: if two states differ in general registers only and agree on R22's column of read registers,
then exec answers next states that agree in everything but general registers, and each register either has the same
value in both or is unchanged in both. [10_state.md R22] -/
def Obligations.RegistersReadAreTheListed : Prop :=
    ∀ (i : Instr) (s s' t : State), s' = { s with V := s'.V } → (∀ r ∈ i.readsV, s'.readV r = s.readV r) →
    exec i s = .next t → ∃ t', exec i s' = .next t' ∧ t' = { t with V := t'.V } ∧
      ∀ r : Nib, t'.readV r = t.readV r ∨ (t.readV r = s.readV r ∧ t'.readV r = s'.readV r)

/-- When exec answers a next state: K never changes; I changes only under Annn, Fx1E, Fx29; stack only under 2nnn; sp
only under 2nnn, 00EE; DT only under Fx15; ST only under Fx18; the display only under 00E0, Dxyn; awaiting_key and
key_dest only under Fx0A; the fault latch only under 2nnn with sp = 16 and 00EE with sp = 0; the model's own fields
rands and draws (log 1) only under Cxnn. [10_state.md sections 3 to 9, 10_state.md R37, 40_step_cycle.md section 2] -/
def Obligations.OnlyTheNamedInstructionsWrite : Prop :=
    ∀ (i : Instr) (s t : State), exec i s = .next t →
    t.K = s.K ∧
    (t.I = s.I ∨ (∃ nnn, i = .ldI nnn) ∨ (∃ x, i = .addIVx x) ∨ ∃ x, i = .ldF x) ∧
    (t.stack = s.stack ∨ ∃ nnn, i = .call nnn) ∧
    (t.sp = s.sp ∨ (∃ nnn, i = .call nnn) ∨ ∃ ign, i = .ret ign) ∧
    (t.DT = s.DT ∨ ∃ x, i = .ldDtVx x) ∧
    (t.ST = s.ST ∨ ∃ x, i = .ldStVx x) ∧
    (t.disp = s.disp ∨ (∃ ign, i = .cls ign) ∨ ∃ x y n, i = .drw x y n) ∧
    ((t.awaitingKey = s.awaitingKey ∧ t.keyDest = s.keyDest) ∨ ∃ x, i = .ldVxK x) ∧
    ((t.halted = s.halted ∧ t.errCode = s.errCode ∧ t.errInstr = s.errInstr ∧ t.errPc = s.errPc) ∨
      (∃ nnn, i = .call nnn ∧ s.sp.val = 16) ∨ ∃ ign, i = .ret ign ∧ s.sp.val = 0) ∧
    ((t.rands = s.rands ∧ t.draws = s.draws) ∨ ∃ x nn, i = .rnd x nn)

/-- When exec answers a next state, pc is unchanged (it already holds A + 2), or the instruction is a jump, call or
return, or it is one of the six skips and pc grew by 2, or it is Fx0A, pc went back by 2 and awaiting_key is 1.
[10_state.md R24, 40_step_cycle.md R135] -/
def Obligations.OnlyControlInstructionsMovePc : Prop :=
    ∀ (i : Instr) (s t : State), exec i s = .next t →
    t.pc = s.pc ∨ (∃ nnn, i = .jp nnn) ∨ (∃ nnn, i = .jpV0 nnn) ∨ (∃ nnn, i = .call nnn) ∨ (∃ ign, i = .ret ign) ∨
    (t.pc = s.pc + 2 ∧ ((∃ x nn, i = .seImm x nn) ∨ (∃ x nn, i = .sneImm x nn) ∨ (∃ x y ign, i = .seReg x y ign) ∨
      (∃ x y ign, i = .sneReg x y ign) ∨ (∃ x, i = .skp x) ∨ ∃ x, i = .sknp x)) ∨
    (t.pc = s.pc - 2 ∧ t.awaitingKey = true ∧ ∃ x, i = .ldVxK x)

/-- For all 34 instructions: when exec answers a next state, every address outside the masked addresses I to I + k - 1
reads as before, with k the count of R69 (3 for Fx33, x + 1 for Fx55, 0 for every other instruction, which so leaves
every byte as it was). [20_memory.md R69] -/
def Obligations.MemoryOutsideTheStoredBytesIsUnchanged : Prop :=
    (∀ (i : Instr) (s t : State), exec i s = .next t → SameMemoryOutside i.storedBytes s t) ∧
    ∀ (i : Instr) (s t : State), exec i s = .next t → i.storedBytes = 0 → SameMemory s t

/-- If a step of a core that is not halted ends halted, then the fetched word is a call with 16 entries held (code 2), a
return with none held (code 3), or illegal (code 4), and the new state is the old one with halted, err_code,
err_instr = the fetched word, err_pc = A and pc = A + 2. [60_exceptions.md section 1, 60_exceptions.md section 2,
92_eei_decisions.md D31] -/
def Obligations.FaultsArePreciseAndListed : Prop :=
    ∀ s t : State, s.halted = false → step s = .next t → t.halted = true →
    s.awaitingKey = false ∧
    t = { s with pc := s.pc + 2, halted := true, errCode := t.errCode, errInstr := fetchWord s, errPc := s.pc } ∧
    ((t.errCode = 2 ∧ s.sp.val = 16 ∧ ∃ nnn, decodeWord (fetchWord s) = .ok (.call nnn)) ∨
      (t.errCode = 3 ∧ s.sp.val = 0 ∧ ∃ ign, decodeWord (fetchWord s) = .ok (.ret ign)) ∨
      (t.errCode = 4 ∧ ∃ e, decodeWord (fetchWord s) = .error e))

/-- At reset the memory is in canonical form, the font is intact, the report names no error and the core neither waits
nor is halted. That the memory list is in canonical form is the model's form (log 8, DESIGN CHOICE), not a rule of
the spec. [10_state.md section 12, 20_memory.md section 2] -/
def Obligations.ResetMeetsTheStepInvariant : Prop :=
    StepInv State.reset

/-- From every state in which the memory is in canonical form, the font is as reset loaded it, halted is 1 exactly when
err_code is not 0 (and err_code is at most 4), and a waiting core is not halted with pc at the suspended Fx0A of its
key_dest, a step leads to such a state. That the memory list is in canonical form is the model's form (log 8, DESIGN
CHOICE), not a rule of the spec. [10_state.md section 7, 20_memory.md section 2, 40_step_cycle.md R127,
60_exceptions.md section 1] -/
def Obligations.StepKeepsTheInvariant : Prop :=
    ∀ s t : State, StepInv s → step s = .next t → StepInv t

/-- From every state that meets the event invariant (canonical memory list, font intact, consistent report), each of
reset, load of any bytes, set_keys, tick and step with any random byte answers a next state that meets it. That the
memory list is in canonical form is the model's form (log 8, DESIGN CHOICE), not a rule of the spec. [10_state.md
R37, 20_memory.md section 2, 70_reset_and_hazards.md section 2, 60_exceptions.md section 1] -/
def Obligations.EveryEventKeepsTheInvariant : Prop :=
    ∀ (e : Event) (s : State), EventInv s → ∃ t, applyEvent e s = .next t ∧ EventInv t

/-- For every finite list of events run from the reset state, in any order and with any arguments, the run goes through
and its last state has memory in canonical form, the font intact and a consistent report. That the memory list is in
canonical form is the model's form (log 8, DESIGN CHOICE), not a rule of the spec. [40_step_cycle.md R121,
10_state.md R37] -/
def Obligations.ReachableStatesMeetTheInvariant : Prop :=
    ∀ es : List Event, ∃ s, runEvents es State.reset = .next s ∧ EventInv s

/-- For every event but reset, from every state (no premise on it): when the event answers a next state, every address
from 0x050 to 0x09F reads as before. [20_memory.md R63, 10_state.md R37] -/
def Obligations.NoEventButResetChangesTheFont : Prop :=
    ∀ (e : Event) (s t : State), e ≠ .reset → applyEvent e s = .next t →
    ∀ a : Nat, 0x050 ≤ a → a ≤ 0x09F → memGet t.mem a = memGet s.mem a

/-- From a halted state, every finite schedule of load, set_keys, tick and step events ends in a state that is halted
and has the same V, pc, I, stack, sp, display, awaiting_key and key_dest; if no load in it is too long, the report
is the same too. [60_exceptions.md R264, 92_eei_decisions.md D32] -/
def Obligations.OnlyResetLeavesTheHaltedCondition : Prop :=
    ∀ (es : List Event) (s t : State), s.halted = true → Event.reset ∉ es → runEvents es s = .next t →
    t.halted = true ∧ t.V = s.V ∧ t.pc = s.pc ∧ t.I = s.I ∧ t.stack = s.stack ∧ t.sp = s.sp ∧ t.disp = s.disp ∧
    t.awaitingKey = s.awaitingKey ∧ t.keyDest = s.keyDest ∧
    ((∀ bytes, Event.load bytes ∈ es → bytes.length ≤ 3584) →
      t.errCode = s.errCode ∧ t.errInstr = s.errInstr ∧ t.errPc = s.errPc)

/-- In every state, halted and waiting included, tick leaves DT - 1 if DT > 0 and else 0, the same for ST, and changes
nothing else. [R243] -/
def Obligations.TickCountsDownBothTimers : Prop :=
    ∀ s : State, (tick s).DT.toNat = (if 0 < s.DT.toNat then s.DT.toNat - 1 else 0) ∧
    (tick s).ST.toNat = (if 0 < s.ST.toNat then s.ST.toNat - 1 else 0) ∧
    tick s = { s with DT := (tick s).DT, ST := (tick s).ST } ∧ applyEvent .tick s = .next (tick s)

/-- A run of k tick events goes through and leaves DT and ST at their old values less k, or 0: so a timer set to v is 0
after exactly v ticks, not before, and stays 0. [45_keypad_timers.md R242] -/
def Obligations.TimerReachesZeroAfterExactlyItsValue : Prop :=
    ∀ (k : Nat) (s : State), ∃ t, runEvents (List.replicate k .tick) s = .next t ∧
    t.DT.toNat = s.DT.toNat - k ∧ t.ST.toNat = s.ST.toNat - k ∧ t = { s with DT := t.DT, ST := t.ST }

/-- In every state, after set_keys(k), K[j] is bit j of k for every j, and nothing else has changed; in particular a
wait is not ended by it. [40_step_cycle.md R124] -/
def Obligations.SetKeysReplacesTheKeypad : Prop :=
    ∀ (k : BitVec 16) (s : State), ∃ t, applyEvent (.setKeys k) s = .next t ∧
    (∀ j : Nib, t.key j = k[j.val]) ∧ t = { s with K := t.K }

/-- In every state: with at most 3584 bytes, byte i is at 0x200 + i afterwards, every other address reads as before, and
nothing but memory has changed; with more, no byte is written and the latch holds code 1 with err_instr and err_pc
0. [70_reset_and_hazards.md R292, 70_reset_and_hazards.md R293, 92_eei_decisions.md D34] -/
def Obligations.LoadCopiesTheImageOrFaults : Prop :=
    ∀ (bytes : List Byte) (s : State),
    (bytes.length ≤ 3584 → ∃ t, applyEvent (.load bytes) s = .next t ∧ t = { s with mem := t.mem } ∧
      ∀ a : Nat, memGet t.mem a =
        if 0x200 ≤ a ∧ a < 0x200 + bytes.length then bytes.getD (a - 0x200) 0 else memGet s.mem a) ∧
    (3584 < bytes.length → applyEvent (.load bytes) s =
      .next { s with halted := true, errCode := 1, errInstr := 0, errPc := 0 })

/-- At reset every register, I, stack entry, sp, timer, key, pixel, latch and report bit is 0, pc is 0x0200, every
memory byte outside 0x050 to 0x09F is 0x00, the 80 bytes there are the font table of R67, and sound_active is 0. The
reset event gives this state from every state, but for the model's own fields rands and draws, which it leaves alone
(log 2, DESIGN CHOICE, no rule of the spec). [10_state.md R35, 20_memory.md R67, 70_reset_and_hazards.md R291,
92_eei_decisions.md D8, 92_eei_decisions.md D9, 92_eei_decisions.md D37] -/
def Obligations.ResetGivesTheListedValues : Prop :=
    (∀ r, State.reset.readV r = 0) ∧ State.reset.pc = 0x0200 ∧ State.reset.I = 0 ∧
    (∀ j : Nib, State.reset.stack[j.val] = 0) ∧ State.reset.sp = 0 ∧ State.reset.DT = 0 ∧ State.reset.ST = 0 ∧
    (∀ k, State.reset.key k = false) ∧ (∀ px py, pixel State.reset.disp px py = false) ∧
    (∀ a : Nat, ¬ (0x050 ≤ a ∧ a ≤ 0x09F) → memGet State.reset.mem a = 0) ∧
    (List.range 80).map (fun k => memGet State.reset.mem (0x050 + k)) =
      ([0xF0, 0x90, 0x90, 0x90, 0xF0, 0x20, 0x60, 0x20, 0x20, 0x70, 0xF0, 0x10, 0xF0, 0x80, 0xF0, 0xF0, 0x10, 0xF0, 0x10, 0xF0] : List Byte) ++
      ([0x90, 0x90, 0xF0, 0x10, 0x10, 0xF0, 0x80, 0xF0, 0x10, 0xF0, 0xF0, 0x80, 0xF0, 0x90, 0xF0, 0xF0, 0x10, 0x20, 0x40, 0x40] : List Byte) ++
      ([0xF0, 0x90, 0xF0, 0x90, 0xF0, 0xF0, 0x90, 0xF0, 0x10, 0xF0, 0xF0, 0x90, 0xF0, 0x90, 0x90, 0xE0, 0x90, 0xE0, 0x90, 0xE0] : List Byte) ++
      ([0xF0, 0x80, 0x80, 0x80, 0xF0, 0xE0, 0x90, 0x90, 0x90, 0xE0, 0xF0, 0x80, 0xF0, 0x80, 0xF0, 0xF0, 0x80, 0xF0, 0x80, 0x80] : List Byte) ∧
    State.reset.awaitingKey = false ∧ State.reset.keyDest = 0 ∧ State.reset.halted = false ∧
    State.reset.errCode = 0 ∧ State.reset.errInstr = 0 ∧ State.reset.errPc = 0 ∧ soundActive State.reset = false ∧
    ∀ s : State, applyEvent .reset s = .next { State.reset with rands := s.rands, draws := s.draws }

/-- If the step of the state with the new keys answers t, then the three strobes presented together answer tick of t;
and no strobe changes nothing. [40_step_cycle.md R133, 92_eei_decisions.md D4] -/
def Obligations.StrobesTogetherRunInTheListedOrder : Prop :=
    (∀ (k : BitVec 16) (rand : Byte) (s t : State), stepWith rand (setKeys k s) = .next t →
      cycle (some k) (some rand) true s = .next (tick t)) ∧
    ∀ s : State, cycle none none false s = .next s
end

