-- ==== Sys2Proof/Laws/Memory.lean ====
section
/-! SUPPORT. Main memory as data: reading after a write, and that a write keeps the canonical form. -/

namespace Sys2Proof.Machine

@[simp] theorem memGet_nil (a : Nat) : memGet [] a = blank a := rfl

theorem memGet_cons (c : Host.Cell) (m : List Host.Cell) (a : Nat) :
    memGet (c :: m) a = if c.1 = a then c.2 else memGet m a := rfl

/-- Inserting a cell at an address that is not listed makes exactly that address read as the cell. -/
theorem memGet_insertCell (a b : Nat) (v : Byte) (m : List Host.Cell) (h : ∀ c ∈ m, c.1 ≠ a) :
    memGet (insertCell (a, v) m) b = if b = a then v else memGet m b := by
  induction m with
  | nil => simp [insertCell, memGet_cons, eq_comm]
  | cons d m ih =>
    have hd : d.1 ≠ a := h d (by simp)
    have ih := ih fun c hc => h c (by simp [hc])
    by_cases hb : b = a
    · subst hb
      by_cases hlt : b < d.1 <;> simp [insertCell, memGet_cons, hlt, hd, ih]
    · by_cases hlt : a < d.1 <;> simp [insertCell, memGet_cons, hlt, hb, ih, Ne.symm hb]

/-- Dropping the entries of `a` leaves every other address as it was, and `a` unlisted. -/
theorem memGet_filter_ne (a b : Nat) (m : List Host.Cell) :
    memGet (m.filter fun c => decide (c.1 ≠ a)) b = if b = a then blank a else memGet m b := by
  induction m with
  | nil => by_cases hb : b = a <;> simp [hb]
  | cons d m ih =>
    by_cases hd : d.1 = a
    · by_cases hb : b = a
      · simpa [hd, hb] using ih
      · have : d.1 ≠ b := fun h => hb (h ▸ hd)
        simpa [memGet_cons, hd, hb, Ne.symm hb] using ih
    · by_cases hb : b = a
      · subst hb
        simpa [memGet_cons, hd] using ih
      · have ih : memGet (m.filter fun c => decide (c.1 ≠ a)) b = memGet m b := by simpa [hb] using ih
        rw [List.filter_cons_of_pos (by simpa using hd), memGet_cons, memGet_cons, ih, if_neg hb]

/-- What `memPut` does, for every list: address `a` reads as `v` and every other address as before. -/
@[simp] theorem memGet_memPut (m : List Host.Cell) (a b : Nat) (v : Byte) :
    memGet (memPut m a v) b = if b = a then v else memGet m b := by
  unfold memPut
  split
  · next h => rw [memGet_filter_ne]; split <;> simp_all
  · rw [memGet_insertCell _ _ _ _ (by simp), memGet_filter_ne]
    split <;> simp_all

/-- The canonical form, as a statement about each cell and the order. -/
theorem memWf_iff (m : List Host.Cell) : memWf m = true ↔
    m.Pairwise (fun c d => c.1 < d.1) ∧ ∀ c ∈ m, c.1 < 4096 ∧ c.2 ≠ blank c.1 := by
  induction m with
  | nil => simp [memWf]
  | cons c m ih =>
    obtain ⟨a, v⟩ := c
    simp only [memWf, Bool.and_eq_true, List.all_eq_true, decide_eq_true_eq, ih,
      List.pairwise_cons, List.forall_mem_cons]
    tauto

theorem mem_insertCell (c d : Host.Cell) (m : List Host.Cell) : d ∈ insertCell c m ↔ d = c ∨ d ∈ m := by
  induction m with
  | nil => simp [insertCell]
  | cons e m ih =>
    by_cases h : c.1 < e.1 <;> simp [insertCell, h, ih]
    tauto

theorem pairwise_insertCell (c : Host.Cell) (m : List Host.Cell) (hm : m.Pairwise fun c d => c.1 < d.1)
    (hc : ∀ d ∈ m, d.1 ≠ c.1) : (insertCell c m).Pairwise fun c d => c.1 < d.1 := by
  induction m with
  | nil => simp [insertCell]
  | cons e m ih =>
    rw [List.pairwise_cons] at hm
    by_cases h : c.1 < e.1
    · simp only [insertCell, h, if_true, List.pairwise_cons]
      refine ⟨?_, hm⟩
      rintro d (_ | ⟨_, hd⟩)
      · exact h
      · exact h.trans (hm.1 d hd)
    · simp only [insertCell, h, if_false, List.pairwise_cons]
      refine ⟨?_, ih hm.2 fun d hd => hc d (by simp [hd])⟩
      intro d hd
      rcases (mem_insertCell c d m).1 hd with rfl | hd
      · have := hc e (by simp); omega
      · exact hm.1 d hd

/-- A write to an address of the memory keeps the canonical form. -/
theorem memWf_memPut (m : List Host.Cell) (a : Nat) (v : Byte) (hm : memWf m = true) (ha : a < 4096) :
    memWf (memPut m a v) = true := by
  rw [memWf_iff] at hm ⊢
  have hp : (m.filter fun c => decide (c.1 ≠ a)).Pairwise fun c d => c.1 < d.1 := hm.1.filter _
  have hc : ∀ c ∈ m.filter (fun c => decide (c.1 ≠ a)), c.1 < 4096 ∧ c.2 ≠ blank c.1 :=
    fun c h => hm.2 c (List.mem_filter.1 h).1
  unfold memPut
  split
  · exact ⟨hp, hc⟩
  · next hv =>
    refine ⟨pairwise_insertCell _ _ hp (by simp), fun c h => ?_⟩
    rcases (mem_insertCell _ _ _).1 h with rfl | h
    · exact ⟨ha, hv⟩
    · exact hc c h

/-- In canonical form, equal contents are equal lists. -/
theorem memWf_ext (m n : List Host.Cell) (hm : memWf m = true) (hn : memWf n = true)
    (h : ∀ a, memGet m a = memGet n a) : m = n := by
  induction m generalizing n with
  | nil =>
    cases n with
    | nil => rfl
    | cons d n =>
      have := (((memWf_iff _).1 hn).2 d (by simp)).2
      exact absurd (h d.1).symm (by simpa [memGet_cons] using this)
  | cons c m ih =>
    have hm' := (memWf_iff _).1 hm
    have below : ∀ (p : List Host.Cell) (a : Nat), (∀ d ∈ p, a < d.1) → memGet p a = blank a := by
      intro p a hp
      induction p with
      | nil => rfl
      | cons e p ihp =>
        have := hp e (by simp)
        rw [memGet_cons, if_neg (by omega), ihp fun d hd => hp d (by simp [hd])]
    have hc := hm'.2 c (by simp)
    have hmc := (List.pairwise_cons.1 hm'.1).1
    cases n with
    | nil => exact absurd (by simpa [memGet_cons] using h c.1) hc.2
    | cons d n =>
      have hn' := (memWf_iff _).1 hn
      have hd := hn'.2 d (by simp)
      have hnd := (List.pairwise_cons.1 hn'.1).1
      have hcd : c.1 = d.1 := by
        rcases Nat.lt_trichotomy c.1 d.1 with hlt | heq | hlt
        · have h1 := h c.1
          rw [below (d :: n) c.1 (by
            rintro e (_ | ⟨_, he⟩)
            · exact hlt
            · exact hlt.trans (hnd e he)), memGet_cons, if_pos rfl] at h1
          exact absurd h1 hc.2
        · exact heq
        · have h1 := h d.1
          rw [below (c :: m) d.1 (by
            rintro e (_ | ⟨_, he⟩)
            · exact hlt
            · exact hlt.trans (hmc e he)), memGet_cons, if_pos rfl] at h1
          exact absurd h1.symm hd.2
      have hv : c.2 = d.2 := by simpa [memGet_cons, hcd] using h c.1
      have htail : m = n := by
        refine ih n ((memWf_iff _).2 ⟨(List.pairwise_cons.1 hm'.1).2, fun e he => hm'.2 e (by simp [he])⟩)
          ((memWf_iff _).2 ⟨(List.pairwise_cons.1 hn'.1).2, fun e he => hn'.2 e (by simp [he])⟩) fun a => ?_
        by_cases ha : c.1 = a
        · rw [below m a (ha ▸ hmc), below n a (ha ▸ hcd ▸ hnd)]
        · have := h a
          rwa [memGet_cons, memGet_cons, if_neg ha, if_neg (hcd ▸ ha)] at this
      rw [htail, Prod.ext hcd hv]

end Sys2Proof.Machine
end

