-- ==== Sys2Proof/Laws/State.lean ====
section
/-! SUPPORT. One lemma per field per update of State, true by rfl. -/

namespace Sys2Proof.Machine

/-! ## setV -/

section
variable (s : State) (x : Nib) (b : Byte)
@[simp] theorem State.setV_V : (s.setV x b).V = s.V.set x.val b := rfl
@[simp] theorem State.setV_pc : (s.setV x b).pc = s.pc := rfl
@[simp] theorem State.setV_I : (s.setV x b).I = s.I := rfl
@[simp] theorem State.setV_stack : (s.setV x b).stack = s.stack := rfl
@[simp] theorem State.setV_sp : (s.setV x b).sp = s.sp := rfl
@[simp] theorem State.setV_DT : (s.setV x b).DT = s.DT := rfl
@[simp] theorem State.setV_ST : (s.setV x b).ST = s.ST := rfl
@[simp] theorem State.setV_K : (s.setV x b).K = s.K := rfl
@[simp] theorem State.setV_disp : (s.setV x b).disp = s.disp := rfl
@[simp] theorem State.setV_mem : (s.setV x b).mem = s.mem := rfl
@[simp] theorem State.setV_awaitingKey : (s.setV x b).awaitingKey = s.awaitingKey := rfl
@[simp] theorem State.setV_keyDest : (s.setV x b).keyDest = s.keyDest := rfl
@[simp] theorem State.setV_halted : (s.setV x b).halted = s.halted := rfl
@[simp] theorem State.setV_errCode : (s.setV x b).errCode = s.errCode := rfl
@[simp] theorem State.setV_errInstr : (s.setV x b).errInstr = s.errInstr := rfl
@[simp] theorem State.setV_errPc : (s.setV x b).errPc = s.errPc := rfl
@[simp] theorem State.setV_rands : (s.setV x b).rands = s.rands := rfl
@[simp] theorem State.setV_draws : (s.setV x b).draws = s.draws := rfl
@[simp] theorem State.setV_key (r : Nib) : (s.setV x b).key r = s.key r := rfl
@[simp] theorem State.setV_memRead (q : Word) : memRead (s.setV x b) q = memRead s q := rfl
end

/-! ## setPc -/

section
variable (s : State) (w : Word)
@[simp] theorem State.setPc_V : (s.setPc w).V = s.V := rfl
@[simp] theorem State.setPc_pc : (s.setPc w).pc = w := rfl
@[simp] theorem State.setPc_I : (s.setPc w).I = s.I := rfl
@[simp] theorem State.setPc_stack : (s.setPc w).stack = s.stack := rfl
@[simp] theorem State.setPc_sp : (s.setPc w).sp = s.sp := rfl
@[simp] theorem State.setPc_DT : (s.setPc w).DT = s.DT := rfl
@[simp] theorem State.setPc_ST : (s.setPc w).ST = s.ST := rfl
@[simp] theorem State.setPc_K : (s.setPc w).K = s.K := rfl
@[simp] theorem State.setPc_disp : (s.setPc w).disp = s.disp := rfl
@[simp] theorem State.setPc_mem : (s.setPc w).mem = s.mem := rfl
@[simp] theorem State.setPc_awaitingKey : (s.setPc w).awaitingKey = s.awaitingKey := rfl
@[simp] theorem State.setPc_keyDest : (s.setPc w).keyDest = s.keyDest := rfl
@[simp] theorem State.setPc_halted : (s.setPc w).halted = s.halted := rfl
@[simp] theorem State.setPc_errCode : (s.setPc w).errCode = s.errCode := rfl
@[simp] theorem State.setPc_errInstr : (s.setPc w).errInstr = s.errInstr := rfl
@[simp] theorem State.setPc_errPc : (s.setPc w).errPc = s.errPc := rfl
@[simp] theorem State.setPc_rands : (s.setPc w).rands = s.rands := rfl
@[simp] theorem State.setPc_draws : (s.setPc w).draws = s.draws := rfl
@[simp] theorem State.setPc_readV (r : Nib) : (s.setPc w).readV r = s.readV r := rfl
@[simp] theorem State.setPc_key (r : Nib) : (s.setPc w).key r = s.key r := rfl
@[simp] theorem State.setPc_memRead (q : Word) : memRead (s.setPc w) q = memRead s q := rfl
end

/-! ## setI -/

section
variable (s : State) (w : Word)
@[simp] theorem State.setI_V : (s.setI w).V = s.V := rfl
@[simp] theorem State.setI_pc : (s.setI w).pc = s.pc := rfl
@[simp] theorem State.setI_I : (s.setI w).I = w := rfl
@[simp] theorem State.setI_stack : (s.setI w).stack = s.stack := rfl
@[simp] theorem State.setI_sp : (s.setI w).sp = s.sp := rfl
@[simp] theorem State.setI_DT : (s.setI w).DT = s.DT := rfl
@[simp] theorem State.setI_ST : (s.setI w).ST = s.ST := rfl
@[simp] theorem State.setI_K : (s.setI w).K = s.K := rfl
@[simp] theorem State.setI_disp : (s.setI w).disp = s.disp := rfl
@[simp] theorem State.setI_mem : (s.setI w).mem = s.mem := rfl
@[simp] theorem State.setI_awaitingKey : (s.setI w).awaitingKey = s.awaitingKey := rfl
@[simp] theorem State.setI_keyDest : (s.setI w).keyDest = s.keyDest := rfl
@[simp] theorem State.setI_halted : (s.setI w).halted = s.halted := rfl
@[simp] theorem State.setI_errCode : (s.setI w).errCode = s.errCode := rfl
@[simp] theorem State.setI_errInstr : (s.setI w).errInstr = s.errInstr := rfl
@[simp] theorem State.setI_errPc : (s.setI w).errPc = s.errPc := rfl
@[simp] theorem State.setI_rands : (s.setI w).rands = s.rands := rfl
@[simp] theorem State.setI_draws : (s.setI w).draws = s.draws := rfl
@[simp] theorem State.setI_readV (r : Nib) : (s.setI w).readV r = s.readV r := rfl
@[simp] theorem State.setI_key (r : Nib) : (s.setI w).key r = s.key r := rfl
@[simp] theorem State.setI_memRead (q : Word) : memRead (s.setI w) q = memRead s q := rfl
end

/-! ## setStack -/

section
variable (s : State) (j : Nib) (w : Word)
@[simp] theorem State.setStack_V : (s.setStack j w).V = s.V := rfl
@[simp] theorem State.setStack_pc : (s.setStack j w).pc = s.pc := rfl
@[simp] theorem State.setStack_I : (s.setStack j w).I = s.I := rfl
@[simp] theorem State.setStack_stack : (s.setStack j w).stack = s.stack.set j.val w := rfl
@[simp] theorem State.setStack_sp : (s.setStack j w).sp = s.sp := rfl
@[simp] theorem State.setStack_DT : (s.setStack j w).DT = s.DT := rfl
@[simp] theorem State.setStack_ST : (s.setStack j w).ST = s.ST := rfl
@[simp] theorem State.setStack_K : (s.setStack j w).K = s.K := rfl
@[simp] theorem State.setStack_disp : (s.setStack j w).disp = s.disp := rfl
@[simp] theorem State.setStack_mem : (s.setStack j w).mem = s.mem := rfl
@[simp] theorem State.setStack_awaitingKey : (s.setStack j w).awaitingKey = s.awaitingKey := rfl
@[simp] theorem State.setStack_keyDest : (s.setStack j w).keyDest = s.keyDest := rfl
@[simp] theorem State.setStack_halted : (s.setStack j w).halted = s.halted := rfl
@[simp] theorem State.setStack_errCode : (s.setStack j w).errCode = s.errCode := rfl
@[simp] theorem State.setStack_errInstr : (s.setStack j w).errInstr = s.errInstr := rfl
@[simp] theorem State.setStack_errPc : (s.setStack j w).errPc = s.errPc := rfl
@[simp] theorem State.setStack_rands : (s.setStack j w).rands = s.rands := rfl
@[simp] theorem State.setStack_draws : (s.setStack j w).draws = s.draws := rfl
@[simp] theorem State.setStack_readV (r : Nib) : (s.setStack j w).readV r = s.readV r := rfl
@[simp] theorem State.setStack_key (r : Nib) : (s.setStack j w).key r = s.key r := rfl
@[simp] theorem State.setStack_memRead (q : Word) : memRead (s.setStack j w) q = memRead s q := rfl
end

/-! ## setSp -/

section
variable (s : State) (n : Fin 17)
@[simp] theorem State.setSp_V : (s.setSp n).V = s.V := rfl
@[simp] theorem State.setSp_pc : (s.setSp n).pc = s.pc := rfl
@[simp] theorem State.setSp_I : (s.setSp n).I = s.I := rfl
@[simp] theorem State.setSp_stack : (s.setSp n).stack = s.stack := rfl
@[simp] theorem State.setSp_sp : (s.setSp n).sp = n := rfl
@[simp] theorem State.setSp_DT : (s.setSp n).DT = s.DT := rfl
@[simp] theorem State.setSp_ST : (s.setSp n).ST = s.ST := rfl
@[simp] theorem State.setSp_K : (s.setSp n).K = s.K := rfl
@[simp] theorem State.setSp_disp : (s.setSp n).disp = s.disp := rfl
@[simp] theorem State.setSp_mem : (s.setSp n).mem = s.mem := rfl
@[simp] theorem State.setSp_awaitingKey : (s.setSp n).awaitingKey = s.awaitingKey := rfl
@[simp] theorem State.setSp_keyDest : (s.setSp n).keyDest = s.keyDest := rfl
@[simp] theorem State.setSp_halted : (s.setSp n).halted = s.halted := rfl
@[simp] theorem State.setSp_errCode : (s.setSp n).errCode = s.errCode := rfl
@[simp] theorem State.setSp_errInstr : (s.setSp n).errInstr = s.errInstr := rfl
@[simp] theorem State.setSp_errPc : (s.setSp n).errPc = s.errPc := rfl
@[simp] theorem State.setSp_rands : (s.setSp n).rands = s.rands := rfl
@[simp] theorem State.setSp_draws : (s.setSp n).draws = s.draws := rfl
@[simp] theorem State.setSp_readV (r : Nib) : (s.setSp n).readV r = s.readV r := rfl
@[simp] theorem State.setSp_key (r : Nib) : (s.setSp n).key r = s.key r := rfl
@[simp] theorem State.setSp_memRead (q : Word) : memRead (s.setSp n) q = memRead s q := rfl
end

/-! ## setDT -/

section
variable (s : State) (b : Byte)
@[simp] theorem State.setDT_V : (s.setDT b).V = s.V := rfl
@[simp] theorem State.setDT_pc : (s.setDT b).pc = s.pc := rfl
@[simp] theorem State.setDT_I : (s.setDT b).I = s.I := rfl
@[simp] theorem State.setDT_stack : (s.setDT b).stack = s.stack := rfl
@[simp] theorem State.setDT_sp : (s.setDT b).sp = s.sp := rfl
@[simp] theorem State.setDT_DT : (s.setDT b).DT = b := rfl
@[simp] theorem State.setDT_ST : (s.setDT b).ST = s.ST := rfl
@[simp] theorem State.setDT_K : (s.setDT b).K = s.K := rfl
@[simp] theorem State.setDT_disp : (s.setDT b).disp = s.disp := rfl
@[simp] theorem State.setDT_mem : (s.setDT b).mem = s.mem := rfl
@[simp] theorem State.setDT_awaitingKey : (s.setDT b).awaitingKey = s.awaitingKey := rfl
@[simp] theorem State.setDT_keyDest : (s.setDT b).keyDest = s.keyDest := rfl
@[simp] theorem State.setDT_halted : (s.setDT b).halted = s.halted := rfl
@[simp] theorem State.setDT_errCode : (s.setDT b).errCode = s.errCode := rfl
@[simp] theorem State.setDT_errInstr : (s.setDT b).errInstr = s.errInstr := rfl
@[simp] theorem State.setDT_errPc : (s.setDT b).errPc = s.errPc := rfl
@[simp] theorem State.setDT_rands : (s.setDT b).rands = s.rands := rfl
@[simp] theorem State.setDT_draws : (s.setDT b).draws = s.draws := rfl
@[simp] theorem State.setDT_readV (r : Nib) : (s.setDT b).readV r = s.readV r := rfl
@[simp] theorem State.setDT_key (r : Nib) : (s.setDT b).key r = s.key r := rfl
@[simp] theorem State.setDT_memRead (q : Word) : memRead (s.setDT b) q = memRead s q := rfl
end

/-! ## setST -/

section
variable (s : State) (b : Byte)
@[simp] theorem State.setST_V : (s.setST b).V = s.V := rfl
@[simp] theorem State.setST_pc : (s.setST b).pc = s.pc := rfl
@[simp] theorem State.setST_I : (s.setST b).I = s.I := rfl
@[simp] theorem State.setST_stack : (s.setST b).stack = s.stack := rfl
@[simp] theorem State.setST_sp : (s.setST b).sp = s.sp := rfl
@[simp] theorem State.setST_DT : (s.setST b).DT = s.DT := rfl
@[simp] theorem State.setST_ST : (s.setST b).ST = b := rfl
@[simp] theorem State.setST_K : (s.setST b).K = s.K := rfl
@[simp] theorem State.setST_disp : (s.setST b).disp = s.disp := rfl
@[simp] theorem State.setST_mem : (s.setST b).mem = s.mem := rfl
@[simp] theorem State.setST_awaitingKey : (s.setST b).awaitingKey = s.awaitingKey := rfl
@[simp] theorem State.setST_keyDest : (s.setST b).keyDest = s.keyDest := rfl
@[simp] theorem State.setST_halted : (s.setST b).halted = s.halted := rfl
@[simp] theorem State.setST_errCode : (s.setST b).errCode = s.errCode := rfl
@[simp] theorem State.setST_errInstr : (s.setST b).errInstr = s.errInstr := rfl
@[simp] theorem State.setST_errPc : (s.setST b).errPc = s.errPc := rfl
@[simp] theorem State.setST_rands : (s.setST b).rands = s.rands := rfl
@[simp] theorem State.setST_draws : (s.setST b).draws = s.draws := rfl
@[simp] theorem State.setST_readV (r : Nib) : (s.setST b).readV r = s.readV r := rfl
@[simp] theorem State.setST_key (r : Nib) : (s.setST b).key r = s.key r := rfl
@[simp] theorem State.setST_memRead (q : Word) : memRead (s.setST b) q = memRead s q := rfl
end

/-! ## setK -/

section
variable (s : State) (k : Vector Bool 16)
@[simp] theorem State.setK_V : (s.setK k).V = s.V := rfl
@[simp] theorem State.setK_pc : (s.setK k).pc = s.pc := rfl
@[simp] theorem State.setK_I : (s.setK k).I = s.I := rfl
@[simp] theorem State.setK_stack : (s.setK k).stack = s.stack := rfl
@[simp] theorem State.setK_sp : (s.setK k).sp = s.sp := rfl
@[simp] theorem State.setK_DT : (s.setK k).DT = s.DT := rfl
@[simp] theorem State.setK_ST : (s.setK k).ST = s.ST := rfl
@[simp] theorem State.setK_K : (s.setK k).K = k := rfl
@[simp] theorem State.setK_disp : (s.setK k).disp = s.disp := rfl
@[simp] theorem State.setK_mem : (s.setK k).mem = s.mem := rfl
@[simp] theorem State.setK_awaitingKey : (s.setK k).awaitingKey = s.awaitingKey := rfl
@[simp] theorem State.setK_keyDest : (s.setK k).keyDest = s.keyDest := rfl
@[simp] theorem State.setK_halted : (s.setK k).halted = s.halted := rfl
@[simp] theorem State.setK_errCode : (s.setK k).errCode = s.errCode := rfl
@[simp] theorem State.setK_errInstr : (s.setK k).errInstr = s.errInstr := rfl
@[simp] theorem State.setK_errPc : (s.setK k).errPc = s.errPc := rfl
@[simp] theorem State.setK_rands : (s.setK k).rands = s.rands := rfl
@[simp] theorem State.setK_draws : (s.setK k).draws = s.draws := rfl
@[simp] theorem State.setK_readV (r : Nib) : (s.setK k).readV r = s.readV r := rfl
@[simp] theorem State.setK_memRead (q : Word) : memRead (s.setK k) q = memRead s q := rfl
end

/-! ## setDisp -/

section
variable (s : State) (d : Vector (Vector Bool 64) 32)
@[simp] theorem State.setDisp_V : (s.setDisp d).V = s.V := rfl
@[simp] theorem State.setDisp_pc : (s.setDisp d).pc = s.pc := rfl
@[simp] theorem State.setDisp_I : (s.setDisp d).I = s.I := rfl
@[simp] theorem State.setDisp_stack : (s.setDisp d).stack = s.stack := rfl
@[simp] theorem State.setDisp_sp : (s.setDisp d).sp = s.sp := rfl
@[simp] theorem State.setDisp_DT : (s.setDisp d).DT = s.DT := rfl
@[simp] theorem State.setDisp_ST : (s.setDisp d).ST = s.ST := rfl
@[simp] theorem State.setDisp_K : (s.setDisp d).K = s.K := rfl
@[simp] theorem State.setDisp_disp : (s.setDisp d).disp = d := rfl
@[simp] theorem State.setDisp_mem : (s.setDisp d).mem = s.mem := rfl
@[simp] theorem State.setDisp_awaitingKey : (s.setDisp d).awaitingKey = s.awaitingKey := rfl
@[simp] theorem State.setDisp_keyDest : (s.setDisp d).keyDest = s.keyDest := rfl
@[simp] theorem State.setDisp_halted : (s.setDisp d).halted = s.halted := rfl
@[simp] theorem State.setDisp_errCode : (s.setDisp d).errCode = s.errCode := rfl
@[simp] theorem State.setDisp_errInstr : (s.setDisp d).errInstr = s.errInstr := rfl
@[simp] theorem State.setDisp_errPc : (s.setDisp d).errPc = s.errPc := rfl
@[simp] theorem State.setDisp_rands : (s.setDisp d).rands = s.rands := rfl
@[simp] theorem State.setDisp_draws : (s.setDisp d).draws = s.draws := rfl
@[simp] theorem State.setDisp_readV (r : Nib) : (s.setDisp d).readV r = s.readV r := rfl
@[simp] theorem State.setDisp_key (r : Nib) : (s.setDisp d).key r = s.key r := rfl
@[simp] theorem State.setDisp_memRead (q : Word) : memRead (s.setDisp d) q = memRead s q := rfl
end

/-! ## setMem -/

section
variable (s : State) (m : List Host.Cell)
@[simp] theorem State.setMem_V : (s.setMem m).V = s.V := rfl
@[simp] theorem State.setMem_pc : (s.setMem m).pc = s.pc := rfl
@[simp] theorem State.setMem_I : (s.setMem m).I = s.I := rfl
@[simp] theorem State.setMem_stack : (s.setMem m).stack = s.stack := rfl
@[simp] theorem State.setMem_sp : (s.setMem m).sp = s.sp := rfl
@[simp] theorem State.setMem_DT : (s.setMem m).DT = s.DT := rfl
@[simp] theorem State.setMem_ST : (s.setMem m).ST = s.ST := rfl
@[simp] theorem State.setMem_K : (s.setMem m).K = s.K := rfl
@[simp] theorem State.setMem_disp : (s.setMem m).disp = s.disp := rfl
@[simp] theorem State.setMem_mem : (s.setMem m).mem = m := rfl
@[simp] theorem State.setMem_awaitingKey : (s.setMem m).awaitingKey = s.awaitingKey := rfl
@[simp] theorem State.setMem_keyDest : (s.setMem m).keyDest = s.keyDest := rfl
@[simp] theorem State.setMem_halted : (s.setMem m).halted = s.halted := rfl
@[simp] theorem State.setMem_errCode : (s.setMem m).errCode = s.errCode := rfl
@[simp] theorem State.setMem_errInstr : (s.setMem m).errInstr = s.errInstr := rfl
@[simp] theorem State.setMem_errPc : (s.setMem m).errPc = s.errPc := rfl
@[simp] theorem State.setMem_rands : (s.setMem m).rands = s.rands := rfl
@[simp] theorem State.setMem_draws : (s.setMem m).draws = s.draws := rfl
@[simp] theorem State.setMem_readV (r : Nib) : (s.setMem m).readV r = s.readV r := rfl
@[simp] theorem State.setMem_key (r : Nib) : (s.setMem m).key r = s.key r := rfl
end

/-! ## setAwaiting -/

section
variable (s : State) (b : Bool)
@[simp] theorem State.setAwaiting_V : (s.setAwaiting b).V = s.V := rfl
@[simp] theorem State.setAwaiting_pc : (s.setAwaiting b).pc = s.pc := rfl
@[simp] theorem State.setAwaiting_I : (s.setAwaiting b).I = s.I := rfl
@[simp] theorem State.setAwaiting_stack : (s.setAwaiting b).stack = s.stack := rfl
@[simp] theorem State.setAwaiting_sp : (s.setAwaiting b).sp = s.sp := rfl
@[simp] theorem State.setAwaiting_DT : (s.setAwaiting b).DT = s.DT := rfl
@[simp] theorem State.setAwaiting_ST : (s.setAwaiting b).ST = s.ST := rfl
@[simp] theorem State.setAwaiting_K : (s.setAwaiting b).K = s.K := rfl
@[simp] theorem State.setAwaiting_disp : (s.setAwaiting b).disp = s.disp := rfl
@[simp] theorem State.setAwaiting_mem : (s.setAwaiting b).mem = s.mem := rfl
@[simp] theorem State.setAwaiting_awaitingKey : (s.setAwaiting b).awaitingKey = b := rfl
@[simp] theorem State.setAwaiting_keyDest : (s.setAwaiting b).keyDest = s.keyDest := rfl
@[simp] theorem State.setAwaiting_halted : (s.setAwaiting b).halted = s.halted := rfl
@[simp] theorem State.setAwaiting_errCode : (s.setAwaiting b).errCode = s.errCode := rfl
@[simp] theorem State.setAwaiting_errInstr : (s.setAwaiting b).errInstr = s.errInstr := rfl
@[simp] theorem State.setAwaiting_errPc : (s.setAwaiting b).errPc = s.errPc := rfl
@[simp] theorem State.setAwaiting_rands : (s.setAwaiting b).rands = s.rands := rfl
@[simp] theorem State.setAwaiting_draws : (s.setAwaiting b).draws = s.draws := rfl
@[simp] theorem State.setAwaiting_readV (r : Nib) : (s.setAwaiting b).readV r = s.readV r := rfl
@[simp] theorem State.setAwaiting_key (r : Nib) : (s.setAwaiting b).key r = s.key r := rfl
@[simp] theorem State.setAwaiting_memRead (q : Word) : memRead (s.setAwaiting b) q = memRead s q := rfl
end

/-! ## setKeyDest -/

section
variable (s : State) (x : Nib)
@[simp] theorem State.setKeyDest_V : (s.setKeyDest x).V = s.V := rfl
@[simp] theorem State.setKeyDest_pc : (s.setKeyDest x).pc = s.pc := rfl
@[simp] theorem State.setKeyDest_I : (s.setKeyDest x).I = s.I := rfl
@[simp] theorem State.setKeyDest_stack : (s.setKeyDest x).stack = s.stack := rfl
@[simp] theorem State.setKeyDest_sp : (s.setKeyDest x).sp = s.sp := rfl
@[simp] theorem State.setKeyDest_DT : (s.setKeyDest x).DT = s.DT := rfl
@[simp] theorem State.setKeyDest_ST : (s.setKeyDest x).ST = s.ST := rfl
@[simp] theorem State.setKeyDest_K : (s.setKeyDest x).K = s.K := rfl
@[simp] theorem State.setKeyDest_disp : (s.setKeyDest x).disp = s.disp := rfl
@[simp] theorem State.setKeyDest_mem : (s.setKeyDest x).mem = s.mem := rfl
@[simp] theorem State.setKeyDest_awaitingKey : (s.setKeyDest x).awaitingKey = s.awaitingKey := rfl
@[simp] theorem State.setKeyDest_keyDest : (s.setKeyDest x).keyDest = x := rfl
@[simp] theorem State.setKeyDest_halted : (s.setKeyDest x).halted = s.halted := rfl
@[simp] theorem State.setKeyDest_errCode : (s.setKeyDest x).errCode = s.errCode := rfl
@[simp] theorem State.setKeyDest_errInstr : (s.setKeyDest x).errInstr = s.errInstr := rfl
@[simp] theorem State.setKeyDest_errPc : (s.setKeyDest x).errPc = s.errPc := rfl
@[simp] theorem State.setKeyDest_rands : (s.setKeyDest x).rands = s.rands := rfl
@[simp] theorem State.setKeyDest_draws : (s.setKeyDest x).draws = s.draws := rfl
@[simp] theorem State.setKeyDest_readV (r : Nib) : (s.setKeyDest x).readV r = s.readV r := rfl
@[simp] theorem State.setKeyDest_key (r : Nib) : (s.setKeyDest x).key r = s.key r := rfl
@[simp] theorem State.setKeyDest_memRead (q : Word) : memRead (s.setKeyDest x) q = memRead s q := rfl
end

/-! ## setLatch -/

section
variable (s : State) (c : BitVec 3) (i a : Word)
@[simp] theorem State.setLatch_V : (s.setLatch c i a).V = s.V := rfl
@[simp] theorem State.setLatch_pc : (s.setLatch c i a).pc = s.pc := rfl
@[simp] theorem State.setLatch_I : (s.setLatch c i a).I = s.I := rfl
@[simp] theorem State.setLatch_stack : (s.setLatch c i a).stack = s.stack := rfl
@[simp] theorem State.setLatch_sp : (s.setLatch c i a).sp = s.sp := rfl
@[simp] theorem State.setLatch_DT : (s.setLatch c i a).DT = s.DT := rfl
@[simp] theorem State.setLatch_ST : (s.setLatch c i a).ST = s.ST := rfl
@[simp] theorem State.setLatch_K : (s.setLatch c i a).K = s.K := rfl
@[simp] theorem State.setLatch_disp : (s.setLatch c i a).disp = s.disp := rfl
@[simp] theorem State.setLatch_mem : (s.setLatch c i a).mem = s.mem := rfl
@[simp] theorem State.setLatch_awaitingKey : (s.setLatch c i a).awaitingKey = s.awaitingKey := rfl
@[simp] theorem State.setLatch_keyDest : (s.setLatch c i a).keyDest = s.keyDest := rfl
@[simp] theorem State.setLatch_halted : (s.setLatch c i a).halted = true := rfl
@[simp] theorem State.setLatch_errCode : (s.setLatch c i a).errCode = c := rfl
@[simp] theorem State.setLatch_errInstr : (s.setLatch c i a).errInstr = i := rfl
@[simp] theorem State.setLatch_errPc : (s.setLatch c i a).errPc = a := rfl
@[simp] theorem State.setLatch_rands : (s.setLatch c i a).rands = s.rands := rfl
@[simp] theorem State.setLatch_draws : (s.setLatch c i a).draws = s.draws := rfl
@[simp] theorem State.setLatch_readV (r : Nib) : (s.setLatch c i a).readV r = s.readV r := rfl
@[simp] theorem State.setLatch_key (r : Nib) : (s.setLatch c i a).key r = s.key r := rfl
@[simp] theorem State.setLatch_memRead (q : Word) : memRead (s.setLatch c i a) q = memRead s q := rfl
end

/-! ## setRand -/

section
variable (s : State) (l : List Byte) (k : Nat)
@[simp] theorem State.setRand_V : (s.setRand l k).V = s.V := rfl
@[simp] theorem State.setRand_pc : (s.setRand l k).pc = s.pc := rfl
@[simp] theorem State.setRand_I : (s.setRand l k).I = s.I := rfl
@[simp] theorem State.setRand_stack : (s.setRand l k).stack = s.stack := rfl
@[simp] theorem State.setRand_sp : (s.setRand l k).sp = s.sp := rfl
@[simp] theorem State.setRand_DT : (s.setRand l k).DT = s.DT := rfl
@[simp] theorem State.setRand_ST : (s.setRand l k).ST = s.ST := rfl
@[simp] theorem State.setRand_K : (s.setRand l k).K = s.K := rfl
@[simp] theorem State.setRand_disp : (s.setRand l k).disp = s.disp := rfl
@[simp] theorem State.setRand_mem : (s.setRand l k).mem = s.mem := rfl
@[simp] theorem State.setRand_awaitingKey : (s.setRand l k).awaitingKey = s.awaitingKey := rfl
@[simp] theorem State.setRand_keyDest : (s.setRand l k).keyDest = s.keyDest := rfl
@[simp] theorem State.setRand_halted : (s.setRand l k).halted = s.halted := rfl
@[simp] theorem State.setRand_errCode : (s.setRand l k).errCode = s.errCode := rfl
@[simp] theorem State.setRand_errInstr : (s.setRand l k).errInstr = s.errInstr := rfl
@[simp] theorem State.setRand_errPc : (s.setRand l k).errPc = s.errPc := rfl
@[simp] theorem State.setRand_rands : (s.setRand l k).rands = l := rfl
@[simp] theorem State.setRand_draws : (s.setRand l k).draws = k := rfl
@[simp] theorem State.setRand_readV (r : Nib) : (s.setRand l k).readV r = s.readV r := rfl
@[simp] theorem State.setRand_key (r : Nib) : (s.setRand l k).key r = s.key r := rfl
@[simp] theorem State.setRand_memRead (q : Word) : memRead (s.setRand l k) q = memRead s q := rfl
end

end Sys2Proof.Machine
end

