-- ==== Sys2Proof/Laws/Ops.lean ====
section
/-! SUPPORT. One lemma per shared operation that says what it can do. -/

namespace Sys2Proof.Machine

/-! ## Registers -/

theorem State.readV_setV (s : State) (x r : Nib) (b : Byte) :
    (s.setV x b).readV r = if r = x then b else s.readV r := by
  have : x.val = r.val ↔ r = x := by rw [eq_comm, Fin.val_inj]
  simp [State.readV, State.setV, Vector.getElem_set, this]

@[simp] theorem State.readV_setV_same (s : State) (x : Nib) (b : Byte) : (s.setV x b).readV x = b := by
  simp [State.readV_setV]

theorem State.readV_writeResultFlag (s : State) (x r : Nib) (v f : Byte) :
    (writeResultFlag x v f s).readV r = if r = 15 then f else if r = x then v else s.readV r := by
  simp [writeResultFlag, State.setVF, State.readV_setV]

/-- Two register files that read alike are equal. -/
theorem State.V_ext (s t : State) (h : ∀ r, s.readV r = t.readV r) : s.V = t.V := by
  apply Vector.ext
  intro i hi
  exact h ⟨i, hi⟩

/-! ## Memory -/

theorem mask12_eq (a : Word) : mask12 a = a.toNat % 4096 := by
  simp only [mask12, BitVec.toNat_and]
  exact Nat.and_two_pow_sub_one_eq_mod a.toNat 12

theorem mask12_lt (a : Word) : mask12 a < 4096 := by rw [mask12_eq]; omega

theorem mask12_blockAddr (i : Word) (k : Nat) : mask12 (blockAddr i k) = (i.toNat + k) % 4096 := by
  simp only [mask12_eq, blockAddr, BitVec.toNat_add, BitVec.toNat_ofNat]
  omega

/-- The bytes of one block do not overlap. -/
theorem mask12_blockAddr_inj (i : Word) (j k : Nat) (hj : j < 4096) (hk : k < 4096) :
    mask12 (blockAddr i j) = mask12 (blockAddr i k) ↔ j = k := by
  simp only [mask12_blockAddr]
  omega

/-- What a store does to a later read (R62, R63). -/
theorem memRead_memWrite (s : State) (a b : Word) (v : Byte) :
    memRead (memWrite a v s) b =
      if mask12 b = mask12 a ∧ inFont (mask12 a) = false then v else memRead s b := by
  unfold memWrite
  cases h : inFont (mask12 a) <;> simp [memRead]

/-- A store changes memory alone. -/
theorem memWrite_eq (s : State) (a : Word) (v : Byte) :
    memWrite a v s = { s with mem := (memWrite a v s).mem } := by
  unfold memWrite
  split <;> rfl

theorem memWrite_memWf (s : State) (a : Word) (v : Byte) (h : memWf s.mem = true) :
    memWf (memWrite a v s).mem = true := by
  unfold memWrite
  split
  · exact h
  · exact memWf_memPut _ _ _ h (mask12_lt a)

/-- No store reaches the font. -/
theorem memWrite_font (s : State) (a : Word) (v : Byte) (b : Nat) (hb : inFont b = true) :
    memGet (memWrite a v s).mem b = memGet s.mem b := by
  unfold memWrite
  split
  · rfl
  · next h => simp only [State.setMem_mem, memGet_memPut]; split <;> simp_all

/-! ## Program counter -/

/-- A skip changes `pc` alone (R150). -/
theorem skipIf_eq (c : Bool) (s : State) : skipIf c s = { s with pc := if c then s.pc + 2 else s.pc } := by
  cases c <;> rfl

/-! ## Stack engine -/

/-- The stack engine's push answers a state exactly when fewer than 16 entries are held (R153). -/
theorem push_eq (w : Word) (s : State) (h : s.sp.val < 16) :
    push w s = some ((s.setStack ⟨s.sp.val, h⟩ w).setSp ⟨s.sp.val + 1, Nat.succ_lt_succ h⟩) := by
  simp [push, h]

theorem push_full (w : Word) (s : State) (h : ¬ s.sp.val < 16) : push w s = none := by
  simp [push, h]

/-- The stack engine's pop answers the newest entry exactly when one is held (R154). -/
theorem pop_eq (s : State) (n : Nat) (hn : n < 16) (h : s.sp.val = n + 1) :
    pop s = some (s.stack[n], s.setSp ⟨n, Nat.lt_succ_of_lt hn⟩) := by
  obtain ⟨sp, hs⟩ : ∃ sp, s.sp = sp := ⟨_, rfl⟩
  unfold pop
  rw [hs] at h ⊢
  obtain ⟨v, hv⟩ := sp
  simp only at h
  subst h
  rfl

theorem pop_empty (s : State) (h : s.sp.val = 0) : pop s = none := by
  have : s.sp = ⟨0, by decide⟩ := Fin.ext h
  unfold pop
  rw [this]

/-! ## Keypad -/

/-- The key found is pressed and no lower one is; none is found exactly when none is pressed. -/
theorem lowestKey_eq_some (s : State) (k : Nib) :
    lowestKey s = some k ↔ s.key k = true ∧ ∀ j < k, s.key j = false := by
  unfold lowestKey
  rw [List.find?_eq_some_iff_getElem]
  constructor
  · rintro ⟨hk, i, hi, rfl, hlt⟩
    refine ⟨hk, fun j hj => ?_⟩
    have := hlt j.val (by simpa [Fin.lt_def] using hj)
    simpa using this
  · rintro ⟨hk, hlt⟩
    refine ⟨hk, k.val, by simp, by simp, fun j hj => ?_⟩
    have := hlt ⟨j, by omega⟩ (by simpa [Fin.lt_def] using hj)
    simpa using this

theorem lowestKey_eq_none (s : State) : lowestKey s = none ↔ ∀ k, s.key k = false := by
  simp [lowestKey]

/-- What a step taken during a wait can do (R126). -/
theorem completeOrKeepWaiting_cases (s : State) :
    (∃ k, lowestKey s = some k ∧ completeOrKeepWaiting s =
        ((s.setV s.keyDest (keyByte k)).setPc (s.pc + 2)).setAwaiting false) ∨
      (lowestKey s = none ∧ completeOrKeepWaiting s = s) := by
  unfold completeOrKeepWaiting
  cases h : lowestKey s <;> simp

/-! ## Operands and ALU -/

theorem lowNibble_val (b : Byte) : (lowNibble b).val = b.toNat % 16 := by
  simp [lowNibble]

theorem aluAdd_eq (a b : Byte) : aluAdd a b = a + b := by
  apply BitVec.eq_of_toNat_eq; simp [aluAdd]

theorem aluSub_eq (a b : Byte) : aluSub a b = a - b := by
  apply BitVec.eq_of_toNat_eq
  simp only [aluSub, BitVec.toNat_ofNat, BitVec.toNat_sub]
  omega

theorem aluShr_eq (a : Byte) : aluShr a = a >>> 1 := by
  apply BitVec.eq_of_toNat_eq
  simp only [aluShr, BitVec.toNat_ofNat, BitVec.toNat_ushiftRight, Nat.shiftRight_eq_div_pow]
  have := a.isLt
  omega

theorem aluShl_eq (a : Byte) : aluShl a = a <<< 1 := by
  apply BitVec.eq_of_toNat_eq
  simp [aluShl, BitVec.toNat_shiftLeft, Nat.shiftLeft_eq]

end Sys2Proof.Machine
end

