-- ==== Sys2Proof/Laws/Blocks.lean ====
section
/-! SUPPORT. What storing and loading a block of registers does (spec/43_index_memory.md R204, R205). -/

namespace Sys2Proof.Machine

/-- Storing a block changes memory alone. -/
theorem storeBlock_eq (k : Nat) (s : State) : storeBlock k s = { s with mem := (storeBlock k s).mem } := by
  induction k with
  | zero => rfl
  | succ k ih =>
    simp only [storeBlock]
    rw [memWrite_eq]
    rw [ih]

@[simp] theorem storeBlock_I (k : Nat) (s : State) : (storeBlock k s).I = s.I := by rw [storeBlock_eq]

@[simp] theorem storeBlock_readV (k : Nat) (s : State) (r : Nib) : (storeBlock k s).readV r = s.readV r := by
  rw [storeBlock_eq]; rfl

/-- Bytes outside the block read as before. -/
theorem memRead_storeBlock_outside (k : Nat) (s : State) (a : Word)
    (h : ∀ j < k, mask12 a ≠ mask12 (blockAddr s.I j)) : memRead (storeBlock k s) a = memRead s a := by
  induction k with
  | zero => rfl
  | succ k ih =>
    simp only [storeBlock, memRead_memWrite, storeBlock_I]
    rw [if_neg (fun hc => h k (by omega) hc.1), ih fun j hj => h j (by omega)]

/-- Byte `j` of the block reads as `V[j]`, or as before where it lies in the font. -/
theorem memRead_storeBlock (k : Nat) (s : State) (j : Nat) (hj : j < k) (hk : k ≤ 16) :
    memRead (storeBlock k s) (blockAddr s.I j) =
      if inFont (mask12 (blockAddr s.I j)) then memRead s (blockAddr s.I j) else s.readV (Fin.ofNat 16 j) := by
  induction k with
  | zero => omega
  | succ k ih =>
    simp only [storeBlock, memRead_memWrite, storeBlock_I, storeBlock_readV]
    have hinj := mask12_blockAddr_inj s.I j k (by omega) (by omega)
    by_cases hjk : j = k
    · subst hjk
      rw [memRead_storeBlock_outside j s _ fun i hi => by
        rw [Ne, mask12_blockAddr_inj s.I j i (by omega) (by omega)]; omega]
      cases inFont (mask12 (blockAddr s.I j)) <;> simp
    · rw [if_neg (fun h => hjk (hinj.1 h.1)), ih (by omega) (by omega)]

/-- A property of memory that every byte store keeps is kept by storing a block. -/
theorem storeBlock_keeps (P : List Host.Cell → Prop) (h : ∀ a v s, P s.mem → P (memWrite a v s).mem) (k : Nat)
    (s : State) (hs : P s.mem) : P (storeBlock k s).mem := by
  induction k with
  | zero => exact hs
  | succ k ih => exact h _ _ _ ih

/-- Loading a block changes the general registers alone. -/
theorem loadBlock_eq (k : Nat) (s : State) : loadBlock k s = { s with V := (loadBlock k s).V } := by
  induction k with
  | zero => rfl
  | succ k ih =>
    simp only [loadBlock]
    rw [ih]
    rfl

@[simp] theorem loadBlock_I (k : Nat) (s : State) : (loadBlock k s).I = s.I := by rw [loadBlock_eq]

@[simp] theorem loadBlock_memRead (k : Nat) (s : State) (a : Word) : memRead (loadBlock k s) a = memRead s a := by
  rw [loadBlock_eq]; rfl

/-- The first `k` registers are the bytes of the block, the others are as before. -/
theorem readV_loadBlock (k : Nat) (s : State) (r : Nib) (hk : k ≤ 16) :
    (loadBlock k s).readV r = if r.val < k then memRead s (blockAddr s.I r.val) else s.readV r := by
  induction k with
  | zero => simp [loadBlock]
  | succ k ih =>
    have hr : r = Fin.ofNat 16 k ↔ r.val = k := by
      rw [Fin.ext_iff, Fin.val_ofNat, Nat.mod_eq_of_lt (by omega)]
    simp only [loadBlock, State.readV_setV, loadBlock_I, loadBlock_memRead, hr]
    rw [ih (by omega)]
    split
    · next h => rw [if_pos (by omega), h]
    · next h => split <;> [rw [if_pos (by omega)]; rw [if_neg (by omega)]]

end Sys2Proof.Machine
end

