-- ==== Sys2Proof/Laws/Decode.lean ====
section
/-! SUPPORT. The fields of a word built from fields (spec/30_encoding.md R91, R92), the words of two bytes, and the masks
of R94's table as divisions and remainders. -/

namespace Sys2Proof

section
variable (op x y n : Nib) (nn : Byte) (nnn : Addr12)

@[simp] theorem fieldOp_wordXI : fieldOp (wordXI op x nn) = op := by
  apply Fin.ext; simp [fieldOp, nibbleAt, wordXI]; omega

@[simp] theorem fieldX_wordXI : fieldX (wordXI op x nn) = x := by
  apply Fin.ext; simp [fieldX, nibbleAt, wordXI]; omega

@[simp] theorem fieldNN_wordXI : fieldNN (wordXI op x nn) = nn := by
  apply BitVec.eq_of_toNat_eq; simp [fieldNN, wordXI]; omega

@[simp] theorem fieldOp_wordA : fieldOp (wordA op nnn) = op := by
  apply Fin.ext; simp [fieldOp, nibbleAt, wordA]; omega

@[simp] theorem fieldNNN_wordA : fieldNNN (wordA op nnn) = nnn := by
  apply BitVec.eq_of_toNat_eq; simp [fieldNNN, wordA]; omega

@[simp] theorem fieldOp_wordXYN : fieldOp (wordXYN op x y n) = op := by
  apply Fin.ext; simp [fieldOp, nibbleAt, wordXYN]; omega

@[simp] theorem fieldX_wordXYN : fieldX (wordXYN op x y n) = x := by
  apply Fin.ext; simp [fieldX, nibbleAt, wordXYN]; omega

@[simp] theorem fieldY_wordXYN : fieldY (wordXYN op x y n) = y := by
  apply Fin.ext; simp [fieldY, nibbleAt, wordXYN]; omega

@[simp] theorem fieldN_wordXYN : fieldN (wordXYN op x y n) = n := by
  apply Fin.ext; simp [fieldN, nibbleAt, wordXYN]; omega

end

section
variable (w : Word)

/-- Every word is the word of its fields in format `XI`. -/
theorem wordXI_fields : wordXI (fieldOp w) (fieldX w) (fieldNN w) = w := by
  apply BitVec.eq_of_toNat_eq
  simp [fieldOp, fieldX, fieldNN, nibbleAt, wordXI]
  omega

/-- Every word is the word of its fields in format `A`. -/
theorem wordA_fields : wordA (fieldOp w) (fieldNNN w) = w := by
  apply BitVec.eq_of_toNat_eq
  simp [fieldOp, fieldNNN, nibbleAt, wordA]
  omega

/-- Every word is the word of its fields in format `XYN`. -/
theorem wordXYN_fields : wordXYN (fieldOp w) (fieldX w) (fieldY w) (fieldN w) = w := by
  apply BitVec.eq_of_toNat_eq
  simp [fieldOp, fieldX, fieldY, fieldN, nibbleAt, wordXYN]
  omega

@[simp] theorem wordOfBytes_high_low : wordOfBytes (highByte w) (lowByte w) = w := by
  apply BitVec.eq_of_toNat_eq
  simp [wordOfBytes, highByte, lowByte]
  omega

/-- The mask that leaves `op`. -/
theorem toNat_and_F000 : (w &&& 0xF000#16).toNat = w.toNat / 4096 * 4096 := by
  have h : w &&& 0xF000#16 = (w >>> 12) <<< 12 := by
    ext i hi
    interval_cases i <;> simp
  rw [h]
  simp [Nat.shiftRight_eq_div_pow, Nat.shiftLeft_eq]
  omega

/-- The mask that leaves `op` and `n`. -/
theorem toNat_and_F00F : (w &&& 0xF00F#16).toNat = w.toNat / 4096 * 4096 + w.toNat % 16 := by
  have h : w &&& 0xF00F#16 = (w &&& 0xF000#16) + (w &&& 0x000F#16) := by
    rw [BitVec.add_eq_or_of_and_eq_zero _ _ (by ext i hi; interval_cases i <;> simp)]
    ext i hi
    interval_cases i <;> simp
  have h1 : (w &&& 0x000F#16).toNat = w.toNat % 16 := by
    rw [BitVec.toNat_and]; exact Nat.and_two_pow_sub_one_eq_mod w.toNat 4
  rw [h, BitVec.toNat_add, toNat_and_F000, h1]
  omega

/-- The mask that leaves `op` and `nn`. -/
theorem toNat_and_F0FF : (w &&& 0xF0FF#16).toNat = w.toNat / 4096 * 4096 + w.toNat % 256 := by
  have h : w &&& 0xF0FF#16 = (w &&& 0xF000#16) + (w &&& 0x00FF#16) := by
    rw [BitVec.add_eq_or_of_and_eq_zero _ _ (by ext i hi; interval_cases i <;> simp)]
    ext i hi
    interval_cases i <;> simp
  have h1 : (w &&& 0x00FF#16).toNat = w.toNat % 256 := by
    rw [BitVec.toNat_and]; exact Nat.and_two_pow_sub_one_eq_mod w.toNat 8
  rw [h, BitVec.toNat_add, toNat_and_F000, h1]
  omega

end

end Sys2Proof
end

