-- ==== Sys2Proof/Laws/Display.lean ====
section
/-! SUPPORT. What drawing does to each pixel and to the collision (spec/44_display.md R222). -/

namespace Sys2Proof.Machine

theorem pixel_setPixel (d : Vector (Vector Bool 64) 32) (px qx : Fin 64) (py qy : Fin 32) (b : Bool) :
    pixel (setPixel px py b d) qx qy = if qx = px ∧ qy = py then b else pixel d qx qy := by
  by_cases h : qy = py
  · subst h
    by_cases h : qx = px
    · subst h
      simp [pixel, setPixel]
    · have hv : ¬ px.val = qx.val := fun e => h (Fin.ext e.symm)
      simp [pixel, setPixel, h, hv]
  · have hv : ¬ py.val = qy.val := fun e => h (Fin.ext e.symm)
    simp [pixel, setPixel, h, hv]

/-- Two displays with the same pixels are equal. -/
theorem display_ext (d e : Vector (Vector Bool 64) 32) (h : ∀ px py, pixel d px py = pixel e px py) : d = e := by
  apply Vector.ext
  intro i hi
  apply Vector.ext
  intro j hj
  exact h ⟨j, hj⟩ ⟨i, hi⟩

@[simp] theorem pixel_clearDisplay (px : Fin 64) (py : Fin 32) : pixel clearDisplay px py = false := by
  simp [pixel, clearDisplay]

theorem wrapX_inj (x0 : Byte) (j k : Nat) (hj : j < 64) (hk : k < 64) : wrapX x0 j = wrapX x0 k ↔ j = k := by
  rw [Fin.ext_iff]; simp only [wrapX, Fin.val_ofNat]; omega

theorem wrapY_inj (y0 : Byte) (j k : Nat) (hj : j < 32) (hk : k < 32) : wrapY y0 j = wrapY y0 k ↔ j = k := by
  rw [Fin.ext_iff]; simp only [wrapY, Fin.val_ofNat]; omega

theorem pixel_drawBit (bit : Bool) (px qx : Fin 64) (py qy : Fin 32) (c : Canvas) :
    pixel (drawBit bit px py c).1 qx qy = (pixel c.1 qx qy ^^ (bit && decide (qx = px ∧ qy = py))) := by
  unfold drawBit
  cases bit
  · simp
  · simp only [if_true, pixel_setPixel]
    split
    · next h => simp [h]
    · next h => simp [h]

theorem collision_drawBit (bit : Bool) (px : Fin 64) (py : Fin 32) (c : Canvas) :
    (drawBit bit px py c).2 = (c.2 || (bit && pixel c.1 px py)) := by
  unfold drawBit
  cases bit <;> simp

/-- Whether one of columns 0 to `k - 1` of the row byte `b` has a 1 bit that lands on column `qx`. -/
def rowHits (b x0 : Byte) (k : Nat) (qx : Fin 64) : Bool :=
  (List.range k).any fun j => spriteBit b j && decide (qx = wrapX x0 j)

/-- Whether one of rows 0 to `k - 1` has a 1 bit that lands on the pixel. -/
def spriteHits (row : Nat → Byte) (x0 y0 : Byte) (k : Nat) (qx : Fin 64) (qy : Fin 32) : Bool :=
  (List.range k).any fun r => decide (qy = wrapY y0 r) && rowHits (row r) x0 8 qx

theorem rowHits_succ (b x0 : Byte) (k : Nat) (qx : Fin 64) :
    rowHits b x0 (k + 1) qx = (rowHits b x0 k qx || (spriteBit b k && decide (qx = wrapX x0 k))) := by
  simp [rowHits, List.range_succ]

theorem spriteHits_succ (row : Nat → Byte) (x0 y0 : Byte) (k : Nat) (qx : Fin 64) (qy : Fin 32) :
    spriteHits row x0 y0 (k + 1) qx qy =
      (spriteHits row x0 y0 k qx qy || (decide (qy = wrapY y0 k) && rowHits (row k) x0 8 qx)) := by
  simp [spriteHits, List.range_succ]

theorem spriteHits_iff (row : Nat → Byte) (x0 y0 : Byte) (k : Nat) (qx : Fin 64) (qy : Fin 32) :
    spriteHits row x0 y0 k qx qy = true ↔
      ∃ r < k, ∃ j < 8, spriteBit (row r) j = true ∧ qx = wrapX x0 j ∧ qy = wrapY y0 r := by
  simp [spriteHits, rowHits]
  constructor
  · rintro ⟨r, hr, hy, j, hj, hb, hx⟩
    exact ⟨r, hr, j, hj, hb, hx, hy⟩
  · rintro ⟨r, hr, j, hj, hb, hx, hy⟩
    exact ⟨r, hr, hy, j, hj, hb, hx⟩

/-- Columns do not wrap onto themselves, so a later column's pixel is hit by no earlier one. -/
theorem rowHits_later (b x0 : Byte) (k : Nat) (hk : k < 64) : rowHits b x0 k (wrapX x0 k) = false := by
  simp only [rowHits, List.any_eq_false, List.mem_range, Bool.and_eq_true, decide_eq_true_eq, not_and]
  intro j hj _ h
  rw [wrapX_inj x0 k j hk (by omega)] at h
  omega

/-- Rows do not wrap onto themselves. -/
theorem spriteHits_later (row : Nat → Byte) (x0 y0 : Byte) (k : Nat) (hk : k < 32) (qx : Fin 64) :
    spriteHits row x0 y0 k qx (wrapY y0 k) = false := by
  simp only [spriteHits, List.any_eq_false, List.mem_range, Bool.and_eq_true, decide_eq_true_eq, not_and]
  intro r hr h
  rw [wrapY_inj y0 k r hk (by omega)] at h
  omega

/-- A row flips exactly the pixels its 1 bits land on. -/
theorem pixel_drawCols (b x0 : Byte) (py : Fin 32) (k : Nat) (hk : k ≤ 64) (c : Canvas) (qx : Fin 64) (qy : Fin 32) :
    pixel (drawCols b x0 py k c).1 qx qy = (pixel c.1 qx qy ^^ (decide (qy = py) && rowHits b x0 k qx)) := by
  induction k with
  | zero => simp [drawCols, rowHits]
  | succ k ih =>
    rw [drawCols, pixel_drawBit, ih (by omega), rowHits_succ, Bool.xor_assoc]
    congr 1
    by_cases hx : qx = wrapX x0 k
    · subst hx
      rw [rowHits_later b x0 k (by omega)]
      by_cases hy : qy = py <;> simp [hy]
    · simp [hx]

/-- A row collides exactly where one of its 1 bits lands on a pixel that is on. -/
theorem collision_drawCols (b x0 : Byte) (py : Fin 32) (k : Nat) (hk : k ≤ 64) (c : Canvas) :
    (drawCols b x0 py k c).2 =
      (c.2 || (List.range k).any fun j => spriteBit b j && pixel c.1 (wrapX x0 j) py) := by
  induction k with
  | zero => simp [drawCols]
  | succ k ih =>
    rw [drawCols, collision_drawBit, ih (by omega), pixel_drawCols _ _ _ _ (by omega),
      rowHits_later b x0 k (by omega)]
    simp [List.range_succ, Bool.or_assoc]

/-- A sprite flips exactly the pixels its 1 bits land on. -/
theorem pixel_drawRows (row : Nat → Byte) (x0 y0 : Byte) (k : Nat) (hk : k ≤ 32) (c : Canvas) (qx : Fin 64)
    (qy : Fin 32) :
    pixel (drawRows row x0 y0 k c).1 qx qy = (pixel c.1 qx qy ^^ spriteHits row x0 y0 k qx qy) := by
  induction k with
  | zero => simp [drawRows, spriteHits]
  | succ k ih =>
    rw [drawRows, pixel_drawCols _ _ _ _ (by omega), ih (by omega), spriteHits_succ, Bool.xor_assoc]
    congr 1
    by_cases hy : qy = wrapY y0 k
    · subst hy
      rw [spriteHits_later row x0 y0 k (by omega)]
      simp
    · simp [hy]

/-- A sprite collides exactly where one of its 1 bits lands on a pixel that was on before the draw. -/
theorem collision_drawRows (row : Nat → Byte) (x0 y0 : Byte) (k : Nat) (hk : k ≤ 32) (c : Canvas) :
    (drawRows row x0 y0 k c).2 =
      (c.2 || (List.range k).any fun r => (List.range 8).any fun j =>
        spriteBit (row r) j && pixel c.1 (wrapX x0 j) (wrapY y0 r)) := by
  induction k with
  | zero => simp [drawRows]
  | succ k ih =>
    rw [drawRows, collision_drawCols _ _ _ _ (by omega), ih (by omega)]
    simp only [pixel_drawRows _ _ _ _ (by omega : k ≤ 32), spriteHits_later row x0 y0 k (by omega), Bool.xor_false]
    simp [List.range_succ, Bool.or_assoc]

end Sys2Proof.Machine
end

