-- ==== Sys2Proof/Laws/PerInstr.lean ====
section
/-! SUPPORT. One lemma per instruction: its word lies in its row of the opcode table (spec/30_encoding.md R94). -/

namespace Sys2Proof

/-- The word of an instruction, under the mask of its row of R94's table, is the row's match. -/
def Laws.RowMatch.Statement (i : Instr) : Prop := encode i &&& i.row.mask = i.row.value

namespace Laws

theorem toNat_wordXI (op x : Nib) (nn : Byte) : (wordXI op x nn).toNat = op.val * 4096 + x.val * 256 + nn.toNat := by
  simp [wordXI]; omega

theorem toNat_wordA (op : Nib) (nnn : Addr12) : (wordA op nnn).toNat = op.val * 4096 + nnn.toNat := by
  simp [wordA]; omega

theorem toNat_wordXYN (op x y n : Nib) :
    (wordXYN op x y n).toNat = op.val * 4096 + x.val * 256 + y.val * 16 + n.val := by
  simp [wordXYN]; omega

/-- A word under a mask that leaves `op`, in each format. -/
theorem wordXI_F000 (op x : Nib) (nn : Byte) : wordXI op x nn &&& 0xF000#16 = BitVec.ofNat 16 (op.val * 4096) := by
  apply BitVec.eq_of_toNat_eq
  rw [toNat_and_F000, toNat_wordXI, BitVec.toNat_ofNat]; omega

theorem wordA_F000 (op : Nib) (nnn : Addr12) : wordA op nnn &&& 0xF000#16 = BitVec.ofNat 16 (op.val * 4096) := by
  apply BitVec.eq_of_toNat_eq
  rw [toNat_and_F000, toNat_wordA, BitVec.toNat_ofNat]; omega

theorem wordXYN_F000 (op x y n : Nib) : wordXYN op x y n &&& 0xF000#16 = BitVec.ofNat 16 (op.val * 4096) := by
  apply BitVec.eq_of_toNat_eq
  rw [toNat_and_F000, toNat_wordXYN, BitVec.toNat_ofNat]; omega

theorem wordXYN_F00F (op x y n : Nib) :
    wordXYN op x y n &&& 0xF00F#16 = BitVec.ofNat 16 (op.val * 4096 + n.val) := by
  apply BitVec.eq_of_toNat_eq
  rw [toNat_and_F00F, toNat_wordXYN, BitVec.toNat_ofNat]; omega

theorem wordXI_F0FF (op x : Nib) (nn : Byte) :
    wordXI op x nn &&& 0xF0FF#16 = BitVec.ofNat 16 (op.val * 4096 + nn.toNat) := by
  apply BitVec.eq_of_toNat_eq
  rw [toNat_and_F0FF, toNat_wordXI, BitVec.toNat_ofNat]; omega

end Laws

theorem Laws.RowMatch.cls (ign : Nib) : Laws.RowMatch.Statement (.cls ign) :=
  (Laws.wordXI_F0FF ..).trans rfl

theorem Laws.RowMatch.ret (ign : Nib) : Laws.RowMatch.Statement (.ret ign) :=
  (Laws.wordXI_F0FF ..).trans rfl

theorem Laws.RowMatch.jp (nnn : Addr12) : Laws.RowMatch.Statement (.jp nnn) :=
  (Laws.wordA_F000 ..).trans rfl

theorem Laws.RowMatch.call (nnn : Addr12) : Laws.RowMatch.Statement (.call nnn) :=
  (Laws.wordA_F000 ..).trans rfl

theorem Laws.RowMatch.seImm (x : Nib) (nn : Byte) : Laws.RowMatch.Statement (.seImm x nn) :=
  (Laws.wordXI_F000 ..).trans rfl

theorem Laws.RowMatch.sneImm (x : Nib) (nn : Byte) : Laws.RowMatch.Statement (.sneImm x nn) :=
  (Laws.wordXI_F000 ..).trans rfl

theorem Laws.RowMatch.seReg (x y ign : Nib) : Laws.RowMatch.Statement (.seReg x y ign) :=
  (Laws.wordXYN_F000 ..).trans rfl

theorem Laws.RowMatch.ldImm (x : Nib) (nn : Byte) : Laws.RowMatch.Statement (.ldImm x nn) :=
  (Laws.wordXI_F000 ..).trans rfl

theorem Laws.RowMatch.addImm (x : Nib) (nn : Byte) : Laws.RowMatch.Statement (.addImm x nn) :=
  (Laws.wordXI_F000 ..).trans rfl

theorem Laws.RowMatch.ldReg (x y : Nib) : Laws.RowMatch.Statement (.ldReg x y) :=
  (Laws.wordXYN_F00F ..).trans rfl

theorem Laws.RowMatch.orReg (x y : Nib) : Laws.RowMatch.Statement (.orReg x y) :=
  (Laws.wordXYN_F00F ..).trans rfl

theorem Laws.RowMatch.andReg (x y : Nib) : Laws.RowMatch.Statement (.andReg x y) :=
  (Laws.wordXYN_F00F ..).trans rfl

theorem Laws.RowMatch.xorReg (x y : Nib) : Laws.RowMatch.Statement (.xorReg x y) :=
  (Laws.wordXYN_F00F ..).trans rfl

theorem Laws.RowMatch.addReg (x y : Nib) : Laws.RowMatch.Statement (.addReg x y) :=
  (Laws.wordXYN_F00F ..).trans rfl

theorem Laws.RowMatch.subReg (x y : Nib) : Laws.RowMatch.Statement (.subReg x y) :=
  (Laws.wordXYN_F00F ..).trans rfl

theorem Laws.RowMatch.shr (x ign : Nib) : Laws.RowMatch.Statement (.shr x ign) :=
  (Laws.wordXYN_F00F ..).trans rfl

theorem Laws.RowMatch.subn (x y : Nib) : Laws.RowMatch.Statement (.subn x y) :=
  (Laws.wordXYN_F00F ..).trans rfl

theorem Laws.RowMatch.shl (x ign : Nib) : Laws.RowMatch.Statement (.shl x ign) :=
  (Laws.wordXYN_F00F ..).trans rfl

theorem Laws.RowMatch.sneReg (x y ign : Nib) : Laws.RowMatch.Statement (.sneReg x y ign) :=
  (Laws.wordXYN_F000 ..).trans rfl

theorem Laws.RowMatch.ldI (nnn : Addr12) : Laws.RowMatch.Statement (.ldI nnn) :=
  (Laws.wordA_F000 ..).trans rfl

theorem Laws.RowMatch.jpV0 (nnn : Addr12) : Laws.RowMatch.Statement (.jpV0 nnn) :=
  (Laws.wordA_F000 ..).trans rfl

theorem Laws.RowMatch.rnd (x : Nib) (nn : Byte) : Laws.RowMatch.Statement (.rnd x nn) :=
  (Laws.wordXI_F000 ..).trans rfl

theorem Laws.RowMatch.drw (x y n : Nib) : Laws.RowMatch.Statement (.drw x y n) :=
  (Laws.wordXYN_F000 ..).trans rfl

theorem Laws.RowMatch.skp (x : Nib) : Laws.RowMatch.Statement (.skp x) :=
  (Laws.wordXI_F0FF ..).trans rfl

theorem Laws.RowMatch.sknp (x : Nib) : Laws.RowMatch.Statement (.sknp x) :=
  (Laws.wordXI_F0FF ..).trans rfl

theorem Laws.RowMatch.ldVxDt (x : Nib) : Laws.RowMatch.Statement (.ldVxDt x) :=
  (Laws.wordXI_F0FF ..).trans rfl

theorem Laws.RowMatch.ldVxK (x : Nib) : Laws.RowMatch.Statement (.ldVxK x) :=
  (Laws.wordXI_F0FF ..).trans rfl

theorem Laws.RowMatch.ldDtVx (x : Nib) : Laws.RowMatch.Statement (.ldDtVx x) :=
  (Laws.wordXI_F0FF ..).trans rfl

theorem Laws.RowMatch.ldStVx (x : Nib) : Laws.RowMatch.Statement (.ldStVx x) :=
  (Laws.wordXI_F0FF ..).trans rfl

theorem Laws.RowMatch.addIVx (x : Nib) : Laws.RowMatch.Statement (.addIVx x) :=
  (Laws.wordXI_F0FF ..).trans rfl

theorem Laws.RowMatch.ldF (x : Nib) : Laws.RowMatch.Statement (.ldF x) :=
  (Laws.wordXI_F0FF ..).trans rfl

theorem Laws.RowMatch.ldB (x : Nib) : Laws.RowMatch.Statement (.ldB x) :=
  (Laws.wordXI_F0FF ..).trans rfl

theorem Laws.RowMatch.stRegs (x : Nib) : Laws.RowMatch.Statement (.stRegs x) :=
  (Laws.wordXI_F0FF ..).trans rfl

theorem Laws.RowMatch.ldRegs (x : Nib) : Laws.RowMatch.Statement (.ldRegs x) :=
  (Laws.wordXI_F0FF ..).trans rfl

end Sys2Proof
end

