-- ==== Sys2Proof/Laws/Step.lean ====
section
/-! SUPPORT. What one step and the other events can do, said once. -/

namespace Sys2Proof.Machine

/-- Every way a step can go (40_step_cycle.md R125). -/
theorem step_cases (s : State) :
    (s.halted = true ∧ step s = .next s) ∨
    (s.halted = false ∧ s.awaitingKey = true ∧ step s = .next (completeOrKeepWaiting s)) ∨
    (s.halted = false ∧ s.awaitingKey = false ∧ ∃ i, decodeWord (fetchWord s) = .ok i ∧
      step s = exec i (fetchIncrement s)) ∨
    (s.halted = false ∧ s.awaitingKey = false ∧ ∃ e, decodeWord (fetchWord s) = .error e ∧
      step s = .next (raise .illegalInstruction (fetchWord s) s.pc (fetchIncrement s))) := by
  unfold step
  cases hh : s.halted
  · cases ha : s.awaitingKey
    · cases hd : decodeWord (fetchWord s) with
      | ok i => exact .inr (.inr (.inl ⟨rfl, rfl, i, rfl, rfl⟩))
      | error e => exact .inr (.inr (.inr ⟨rfl, rfl, e, rfl, rfl⟩))
    · exact .inr (.inl ⟨rfl, rfl, rfl⟩)
  · exact .inl ⟨rfl, rfl⟩

theorem setKeys_key (k : BitVec 16) (s : State) (j : Nib) : (setKeys k s).key j = k.getLsbD j.val := by
  simp [setKeys, State.key]

/-- Placing bytes makes exactly their addresses read as them. -/
theorem memGet_placeBytes (bs : List Byte) (a : Nat) (m : List Host.Cell) (q : Nat) :
    memGet (placeBytes bs a m) q = if a ≤ q ∧ q < a + bs.length then bs.getD (q - a) 0 else memGet m q := by
  induction bs generalizing a m with
  | nil =>
    rw [if_neg (by simp only [List.length_nil]; omega)]
    rfl
  | cons b bs ih =>
    rw [placeBytes, ih, memGet_memPut]
    by_cases hq : q = a
    · subst hq
      rw [if_neg (by omega), if_pos rfl, if_pos (by simp)]
      simp
    · by_cases hin : a + 1 ≤ q ∧ q < a + 1 + bs.length
      · rw [if_pos hin, if_pos (by simp only [List.length_cons]; omega)]
        obtain ⟨k, rfl⟩ : ∃ k, q = a + (k + 1) := ⟨q - a - 1, by omega⟩
        rw [show a + (k + 1) - (a + 1) = k by omega, show a + (k + 1) - a = k + 1 by omega, List.getD_cons_succ]
      · rw [if_neg hin, if_neg hq, if_neg (by simp only [List.length_cons]; omega)]

theorem memWf_placeBytes (bs : List Byte) (a : Nat) (m : List Host.Cell) (hm : memWf m = true)
    (h : a + bs.length ≤ 4096) : memWf (placeBytes bs a m) = true := by
  induction bs generalizing a m with
  | nil => exact hm
  | cons b bs ih =>
    simp only [List.length_cons] at h
    exact ih (a + 1) _ (memWf_memPut _ _ _ hm (by omega)) (by omega)

theorem countDown_toNat (t : Byte) : (countDown t).toNat = t.toNat - 1 := by
  unfold countDown
  split
  · have := t.isLt
    simp only [BitVec.toNat_ofNat]
    omega
  · omega

end Sys2Proof.Machine
end

