-- ==== Sys2Proof/Tests/Slice0.lean ====
section
/-! SUPPORT. Tests. Expected results are the worked examples and vectors of spec/95_test_vectors.md and the encodings of
spec/30_encoding.md R92 to R97; each witness shows that the hypotheses of a statement can be met together. -/

namespace Sys2Proof.Machine.Tests

/-! ## Helpers -/

/-- `s` with the listed registers set. -/
def withV (vs : List (Nib × Byte)) (s : State) : State := vs.foldl (fun s p => s.setV p.1 p.2) s

/-- `s` with the listed bytes of memory set. -/
def withMem (ms : List (Nat × Byte)) (s : State) : State := ms.foldl (fun s p => s.setMem (memPut s.mem p.1 p.2)) s

/-- `s` with the listed keys pressed. -/
def withKeys (ks : List Nib) (s : State) : State := ks.foldl (fun s k => s.setK (s.K.set k.val true)) s

/-- `s` with the listed pixels on. -/
def withPixels (ps : List (Fin 64 × Fin 32)) (s : State) : State :=
  ps.foldl (fun s p => s.setDisp (setPixel p.1 p.2 true s.disp)) s

/-- One step of `s` with the word `w` placed where it fetches answers a next state that passes the check. -/
def runs (w : Nat) (s : State) (check : State → Bool) : Bool :=
  match step (s.withFetchWord 16 w) with
  | .next t => check t
  | _ => false

/-- An event answers a next state that passes the check. -/
def after (e : Event) (s : State) (check : State → Bool) : Bool :=
  match applyEvent e s with
  | .next t => check t
  | _ => false

/-- The four fields of the report (10_state.md R31). -/
def report (s : State) : Bool × Nat × Nat × Nat := (s.halted, s.errCode.toNat, s.errInstr.toNat, s.errPc.toNat)

abbrev r0 : State := State.reset

/-- The next state answered, if any. -/
def answer : Result → Option State
  | .next t => some t
  | _ => none

theorem next_of_answer {r : Result} {t : State} (h : answer r = some t) : r = .next t := by
  cases r <;> cases h
  rfl

/-! ## Well-formed instructions (30_encoding.md R96): each check refuses a term with its ignored nibble not 0 -/

theorem test_wellFormed_refuses_cls : Instr.wellFormed (.cls 0xA) = false := by decide
theorem test_wellFormed_refuses_ret : Instr.wellFormed (.ret 7) = false := by decide
theorem test_wellFormed_refuses_seReg : Instr.wellFormed (.seReg 1 2 1) = false := by decide
theorem test_wellFormed_refuses_sneReg : Instr.wellFormed (.sneReg 1 2 0xF) = false := by decide
theorem test_wellFormed_refuses_shr : Instr.wellFormed (.shr 0xA 0xB) = false := by decide
theorem test_wellFormed_refuses_shl : Instr.wellFormed (.shl 1 2) = false := by decide
theorem test_wellFormed_accepts : Instr.wellFormed (.shr 0xA 0) = true ∧ Instr.wellFormed (.drw 1 2 5) = true := by decide

/-! ## Decoding: a word written out from the formats of R92 and the rows of R94, one for each constructor -/

theorem test_decode_cls : decodeWord 0b0000_1010_1110_0000 = .ok (.cls 0xA) := by decide
theorem test_decode_ret : decodeWord 0b0000_0111_1110_1110 = .ok (.ret 7) := by decide
theorem test_decode_jp : decodeWord 0b0001_1010_1011_1100 = .ok (.jp 0xABC) := by decide
theorem test_decode_call : decodeWord 0b0010_0011_0000_0000 = .ok (.call 0x300) := by decide
theorem test_decode_seImm : decodeWord 0b0011_0010_0001_0000 = .ok (.seImm 2 0x10) := by decide
theorem test_decode_sneImm : decodeWord 0b0100_0010_0001_0001 = .ok (.sneImm 2 0x11) := by decide
theorem test_decode_seReg : decodeWord 0b0101_0001_0010_0001 = .ok (.seReg 1 2 1) := by decide
theorem test_decode_ldImm : decodeWord 0b0110_1010_0001_0010 = .ok (.ldImm 0xA 0x12) := by decide
theorem test_decode_addImm : decodeWord 0b0111_0001_1111_1111 = .ok (.addImm 1 0xFF) := by decide
theorem test_decode_ldReg : decodeWord 0b1000_0001_0010_0000 = .ok (.ldReg 1 2) := by decide
theorem test_decode_orReg : decodeWord 0b1000_0001_0010_0001 = .ok (.orReg 1 2) := by decide
theorem test_decode_andReg : decodeWord 0b1000_0001_0010_0010 = .ok (.andReg 1 2) := by decide
theorem test_decode_xorReg : decodeWord 0b1000_0001_0010_0011 = .ok (.xorReg 1 2) := by decide
theorem test_decode_addReg : decodeWord 0b1000_1111_0001_0100 = .ok (.addReg 0xF 1) := by decide
theorem test_decode_subReg : decodeWord 0b1000_0001_0010_0101 = .ok (.subReg 1 2) := by decide
theorem test_decode_shr : decodeWord 0b1000_1010_1011_0110 = .ok (.shr 0xA 0xB) := by decide
theorem test_decode_subn : decodeWord 0b1000_0001_0010_0111 = .ok (.subn 1 2) := by decide
theorem test_decode_shl : decodeWord 0b1000_0001_0010_1110 = .ok (.shl 1 2) := by decide
theorem test_decode_sneReg : decodeWord 0b1001_0001_0010_1111 = .ok (.sneReg 1 2 0xF) := by decide
theorem test_decode_ldI : decodeWord 0b1010_0010_1111_0000 = .ok (.ldI 0x2F0) := by decide
theorem test_decode_jpV0 : decodeWord 0b1011_1111_1111_1111 = .ok (.jpV0 0xFFF) := by decide
theorem test_decode_rnd : decodeWord 0b1100_0001_0000_1111 = .ok (.rnd 1 0x0F) := by decide
theorem test_decode_drw : decodeWord 0b1101_0001_0010_0101 = .ok (.drw 1 2 5) := by decide
theorem test_decode_skp : decodeWord 0b1110_0001_1001_1110 = .ok (.skp 1) := by decide
theorem test_decode_sknp : decodeWord 0b1110_0001_1010_0001 = .ok (.sknp 1) := by decide
theorem test_decode_ldVxDt : decodeWord 0b1111_0101_0000_0111 = .ok (.ldVxDt 5) := by decide
theorem test_decode_ldVxK : decodeWord 0b1111_0011_0000_1010 = .ok (.ldVxK 3) := by decide
theorem test_decode_ldDtVx : decodeWord 0b1111_0101_0001_0101 = .ok (.ldDtVx 5) := by decide
theorem test_decode_ldStVx : decodeWord 0b1111_0101_0001_1000 = .ok (.ldStVx 5) := by decide
theorem test_decode_addIVx : decodeWord 0b1111_0010_0001_1110 = .ok (.addIVx 2) := by decide
theorem test_decode_ldF : decodeWord 0b1111_0100_0010_1001 = .ok (.ldF 4) := by decide
theorem test_decode_ldB : decodeWord 0b1111_0000_0011_0011 = .ok (.ldB 0) := by decide
theorem test_decode_stRegs : decodeWord 0b1111_0010_0101_0101 = .ok (.stRegs 2) := by decide
theorem test_decode_ldRegs : decodeWord 0b1111_1111_0110_0101 = .ok (.ldRegs 0xF) := by decide

theorem test_decode_illegal : decodeWord 0x00E1 = .error .family0 ∧ decodeWord 0x812D = .error .family8 ∧
    decodeWord 0x812F = .error .family8 ∧ decodeWord 0xE19F = .error .familyE ∧ decodeWord 0xF066 = .error .familyF := by
  decide
theorem test_decode_bytes : decode [0x6A, 0x12, 0x77] = .ok (.ldImm 0xA 0x12, [0x77]) ∧
    decode [0x6A] = .error .truncated := by decide
theorem test_encode : encode (.drw 1 2 5) = 0xD125 ∧ encode (.shr 0xA 0) = 0x8A06 ∧ encode (.jp 0xABC) = 0x1ABC ∧
    encodeBytes (.ldImm 0xA 0x12) = [0x6A, 0x12] := by decide
theorem test_decodeTableWord : decodeTableWord 16 0x6A12 = some (.ldImm 0xA 0x12) ∧
    decodeTableWord 16 0x8128 = none := by decide
theorem test_withFetchWord : fetchWord (r0.withFetchWord 16 0x6A12) = 0x6A12 ∧
    memGet (r0.withFetchWord 16 0x6A12).mem 0x200 = 0x6A := by decide

/-! ## One step (95_test_vectors.md sections 2.2 to 2.7) -/

theorem test_fetch_odd_pc : (match step (withMem [(0x201, 0x6A), (0x202, 0x12)] (r0.setPc 0x0201)) with
    | .next t => t.readV 10 == 0x12 && t.pc == 0x0203 | _ => false) = true := by decide
theorem test_fetch_wraps : (match step (withMem [(0xFFF, 0x12), (0x000, 0x34)] (r0.setPc 0x0FFF)) with
    | .next t => t.pc == 0x0234 | _ => false) = true := by decide
theorem test_fetch_masks_pc : (match step (withMem [(0x0FE, 0x61), (0x0FF, 0x07)] (r0.setPc 0x10FE)) with
    | .next t => t.readV 1 == 0x07 && t.pc == 0x1100 | _ => false) = true := by decide
theorem test_fetch_top_of_pc : (match step (withMem [(0xFFF, 0x6A), (0x000, 0x12)] (r0.setPc 0xFFFF)) with
    | .next t => t.readV 10 == 0x12 && t.pc == 0x0001 | _ => false) = true := by decide
theorem test_illegal_halts : runs 0x8128 r0
    (fun t => report t == (true, 4, 0x8128, 0x0200) && t.pc == 0x0202) = true := by decide
theorem test_cls : runs 0x0AE0 (withPixels [(3, 4), (63, 31)] r0)
    (fun t => !pixel t.disp 3 4 && !pixel t.disp 63 31 && t.pc == 0x0202) = true := by decide
theorem test_ret : runs 0x00EE ((r0.setStack 0 0x0206).setSp 1)
    (fun t => t.pc == 0x0206 && t.sp == 0 && t.stack[0] == 0x0206) = true := by decide
theorem test_ret_underflow : runs 0x07EE r0
    (fun t => report t == (true, 3, 0x07EE, 0x0200) && t.pc == 0x0202 && t.sp == 0) = true := by decide
theorem test_jp : runs 0x1ABC r0 (fun t => t.pc == 0x0ABC) = true := by decide
theorem test_jp_odd : runs 0x1201 r0 (fun t => t.pc == 0x0201) = true := by decide
theorem test_call : runs 0x2300 ((r0.setPc 0x0204).setSp 15)
    (fun t => t.stack[15] == 0x0206 && t.sp == 16 && t.pc == 0x0300) = true := by decide
theorem test_call_overflow : runs 0x2300 ((r0.setPc 0x0204).setSp 16)
    (fun t => report t == (true, 2, 0x2300, 0x0204) && t.pc == 0x0206 && t.sp == 16) = true := by decide
theorem test_seImm_taken : runs 0x3210 (withV [(2, 0x10)] r0) (fun t => t.pc == 0x0204) = true := by decide
theorem test_seImm_not : runs 0x3211 (withV [(2, 0x10)] r0) (fun t => t.pc == 0x0202) = true := by decide
theorem test_sneImm_not : runs 0x4210 (withV [(2, 0x10)] r0) (fun t => t.pc == 0x0202) = true := by decide
theorem test_sneImm_taken : runs 0x4211 (withV [(2, 0x10)] r0) (fun t => t.pc == 0x0204) = true := by decide
theorem test_seReg_taken : runs 0x5121 (withV [(1, 7), (2, 7)] r0) (fun t => t.pc == 0x0204) = true := by decide
theorem test_seReg_not : runs 0x5120 (withV [(1, 7), (2, 8)] r0) (fun t => t.pc == 0x0202) = true := by decide
theorem test_sneReg_taken : runs 0x9120 (withV [(1, 7), (2, 8)] r0) (fun t => t.pc == 0x0204) = true := by decide
theorem test_sneReg_not : runs 0x9110 (withV [(1, 7)] r0) (fun t => t.pc == 0x0202) = true := by decide
theorem test_ldImm : runs 0x6F07 r0 (fun t => t.readV 15 == 0x07 && t.pc == 0x0202) = true := by decide
theorem test_addImm_no_flag : runs 0x7101 (withV [(1, 0xFF), (15, 0x55)] r0)
    (fun t => t.readV 1 == 0x00 && t.readV 15 == 0x55) = true := by decide
theorem test_addImm_flag_register : runs 0x7F01 (withV [(15, 0xFF)] r0)
    (fun t => t.readV 15 == 0x00) = true := by decide
theorem test_ldReg : runs 0x8120 (withV [(2, 0x55)] r0)
    (fun t => t.readV 1 == 0x55 && t.readV 2 == 0x55) = true := by decide
theorem test_orReg : runs 0x8121 (withV [(1, 0x0F), (2, 0xF0), (15, 0x33)] r0)
    (fun t => t.readV 1 == 0xFF && t.readV 15 == 0x33) = true := by decide
theorem test_andReg : runs 0x8122 (withV [(1, 0x3C), (2, 0x0F), (15, 0x33)] r0)
    (fun t => t.readV 1 == 0x0C && t.readV 15 == 0x33) = true := by decide
theorem test_xorReg : runs 0x8123 (withV [(1, 0xFF), (2, 0x0F), (15, 0x33)] r0)
    (fun t => t.readV 1 == 0xF0 && t.readV 15 == 0x33) = true := by decide
theorem test_xorReg_same : runs 0x8113 (withV [(1, 0x5A)] r0) (fun t => t.readV 1 == 0x00) = true := by decide
theorem test_addReg_carry : runs 0x8124 (withV [(1, 0xFF), (2, 1)] r0)
    (fun t => t.readV 1 == 0x00 && t.readV 15 == 1) = true := by decide
theorem test_addReg_flag_last : runs 0x8F14 (withV [(15, 0xFF), (1, 1)] r0)
    (fun t => t.readV 15 == 0x01) = true := by decide
theorem test_subReg_borrow : runs 0x8125 (withV [(1, 5), (2, 7)] r0)
    (fun t => t.readV 1 == 0xFE && t.readV 15 == 0) = true := by decide
theorem test_subReg_equal : runs 0x8125 (withV [(1, 5), (2, 5)] r0)
    (fun t => t.readV 1 == 0x00 && t.readV 15 == 1) = true := by decide
theorem test_shr : runs 0x8126 (withV [(1, 5), (2, 0xF0)] r0)
    (fun t => t.readV 1 == 0x02 && t.readV 15 == 1 && t.readV 2 == 0xF0) = true := by decide
theorem test_shr_flag_register : runs 0x8F06 (withV [(15, 3)] r0) (fun t => t.readV 15 == 0x01) = true := by decide
theorem test_subn : runs 0x8127 (withV [(1, 5), (2, 7)] r0)
    (fun t => t.readV 1 == 0x02 && t.readV 15 == 1) = true := by decide
theorem test_subn_borrow : runs 0x8127 (withV [(1, 7), (2, 5)] r0)
    (fun t => t.readV 1 == 0xFE && t.readV 15 == 0) = true := by decide
theorem test_shl : runs 0x810E (withV [(1, 0x81)] r0)
    (fun t => t.readV 1 == 0x02 && t.readV 15 == 1) = true := by decide
theorem test_shl_flag_register : runs 0x8F0E (withV [(15, 0x7F)] r0)
    (fun t => t.readV 15 == 0x00) = true := by decide
theorem test_ldI : runs 0xA2F0 r0 (fun t => t.I == 0x02F0) = true := by decide
theorem test_jpV0 : runs 0xBFFF (withV [(0, 0xFF)] r0) (fun t => t.pc == 0x10FE) = true := by decide
theorem test_rnd : runs 0xC10F (r0.setRand [0xA7] 0)
    (fun t => t.readV 1 == 0x07 && t.rands == [] && t.draws == 1) = true := by decide
theorem test_rnd_event : after (.step 0x5C) (r0.withFetchWord 16 0xC1FF)
    (fun t => t.readV 1 == 0x5C && t.rands == []) = true := by decide
theorem test_drw_wraps : runs 0xD012 (withV [(0, 62), (1, 31)] (withMem [(0x20E, 0xC0), (0x20F, 0x81)] (r0.setI 0x20E)))
    (fun t => pixel t.disp 62 31 && pixel t.disp 63 31 && pixel t.disp 62 0 && pixel t.disp 5 0 &&
      !pixel t.disp 0 31 && t.readV 15 == 0) = true := by decide
theorem test_drw_collides : runs 0xD011 (withPixels [(1, 0)] (withMem [(0x300, 0xC0)] (r0.setI 0x300)))
    (fun t => pixel t.disp 0 0 && !pixel t.disp 1 0 && t.readV 15 == 1) = true := by decide
theorem test_skp_low_nibble : runs 0xE19E (withV [(1, 0x15)] (withKeys [5] r0))
    (fun t => t.pc == 0x0204) = true := by decide
theorem test_skp_not : runs 0xE19E (withV [(1, 5)] r0) (fun t => t.pc == 0x0202) = true := by decide
theorem test_sknp : runs 0xE1A1 (withV [(1, 5)] r0) (fun t => t.pc == 0x0204) = true := by decide
theorem test_sknp_not : runs 0xE1A1 (withV [(1, 5)] (withKeys [5] r0)) (fun t => t.pc == 0x0202) = true := by decide
theorem test_ldVxDt : runs 0xF507 (r0.setDT 0x2A) (fun t => t.readV 5 == 0x2A && t.DT == 0x2A) = true := by decide
theorem test_ldVxK_waits : runs 0xF30A r0
    (fun t => t.pc == 0x0200 && t.awaitingKey && t.keyDest == 3 && t.readV 3 == 0) = true := by decide
theorem test_ldVxK_pressed : runs 0xF30A (withKeys [9, 12] r0)
    (fun t => t.readV 3 == 0x09 && t.pc == 0x0202 && !t.awaitingKey) = true := by decide
theorem test_ldDtVx : runs 0xF515 (withV [(5, 0x3C)] r0) (fun t => t.DT == 0x3C && t.ST == 0) = true := by decide
theorem test_ldStVx : runs 0xF518 (withV [(5, 2)] r0)
    (fun t => t.ST == 0x02 && soundActive t && t.DT == 0) = true := by decide
theorem test_addIVx : runs 0xF21E (withV [(2, 1), (15, 0x55)] (r0.setI 0xFFFF))
    (fun t => t.I == 0x0000 && t.readV 15 == 0x55) = true := by decide
theorem test_addIVx_past_memory : runs 0xF21E (withV [(2, 1)] (r0.setI 0x0FFF))
    (fun t => t.I == 0x1000 && t.readV 15 == 0) = true := by decide
theorem test_ldF : runs 0xF429 (withV [(4, 0x0F)] r0) (fun t => t.I == 0x009B) = true := by decide
theorem test_ldF_low_nibble : runs 0xF429 (withV [(4, 0x1A)] r0) (fun t => t.I == 0x0082) = true := by decide
theorem test_ldB : runs 0xF033 (withV [(0, 254)] (r0.setI 0x300))
    (fun t => memGet t.mem 0x300 == 2 && memGet t.mem 0x301 == 5 && memGet t.mem 0x302 == 4) = true := by decide
theorem test_ldB_font : runs 0xF033 (withV [(0, 123)] (r0.setI 0x04E))
    (fun t => memGet t.mem 0x04E == 1 && memGet t.mem 0x04F == 2 && memGet t.mem 0x050 == 0xF0) = true := by decide
theorem test_stRegs_wraps : runs 0xF355 (withV [(0, 0xAA), (1, 0xBB), (2, 0xCC), (3, 0xDD)] (r0.setI 0xFFE))
    (fun t => memGet t.mem 0xFFE == 0xAA && memGet t.mem 0xFFF == 0xBB && memGet t.mem 0 == 0xCC &&
      memGet t.mem 1 == 0xDD && t.I == 0xFFE) = true := by decide
theorem test_stRegs_font : runs 0xF355 (withV [(0, 0xAA), (1, 0xBB), (2, 0xCC), (3, 0xDD)] (r0.setI 0x04E))
    (fun t => memGet t.mem 0x04F == 0xBB && memGet t.mem 0x050 == 0xF0 && memGet t.mem 0x051 == 0x90) = true := by decide
theorem test_ldRegs : runs 0xF265 (withMem [(0x300, 2), (0x301, 5), (0x302, 4), (0x303, 9)] (r0.setI 0x300))
    (fun t => t.readV 0 == 2 && t.readV 1 == 5 && t.readV 2 == 4 && t.readV 3 == 0 && t.I == 0x300) = true := by decide
theorem test_ldRegs_glyph0 : runs 0xF465 (r0.setI 0x050)
    (fun t => t.readV 0 == 0xF0 && t.readV 1 == 0x90 && t.readV 4 == 0xF0) = true := by decide

/-! ## Events (95_test_vectors.md sections 2.7, 2.8) -/

theorem test_wait_completes : (match step (withKeys [3, 7] ((r0.setAwaiting true).setKeyDest 3)) with
    | .next t => t.readV 3 == 0x03 && t.pc == 0x0202 && !t.awaitingKey | _ => false) = true := by decide
theorem test_tick : after .tick ((r0.setDT 3).setST 1) (fun t => t.DT == 2 && t.ST == 0 && !soundActive t) = true := by
  decide
theorem test_tick_at_zero : after .tick r0 (fun t => decide (t = r0)) = true := by decide
theorem test_setKeys : after (.setKeys 0x0088) r0 (fun t => t.key 3 && t.key 7 && !t.key 4) = true := by decide
theorem test_load : after (.load [0x6A, 0x12]) r0
    (fun t => memGet t.mem 0x200 == 0x6A && memGet t.mem 0x201 == 0x12 && memGet t.mem 0x202 == 0) = true := by decide
theorem test_memPut_canonical : memPut [(0x300, 7)] 0x300 0 = [] ∧ memPut [(0x300, 7)] 0x2FF 1 = [(0x2FF, 1), (0x300, 7)] ∧
    memPut [] 0x050 0xF0 = [] := by decide

/-! ## Witnesses: concrete states and operands that meet the hypotheses of each statement, clause by clause -/

/-- A core about to fetch the word. -/
abbrev ready (w : Nat) : State := r0.withFetchWord 16 w

/-- A core waiting at the `Fx0A` (here `F30A`) it fetched. -/
abbrev waiting : State := ((ready 0xF30A).setAwaiting true).setKeyDest 3

/-- A halted core. -/
abbrev stopped : State := r0.setLatch 4 0x8128 0x0200

theorem test_witness_EncodeInvertsDecode : decodeWord 0x8AB6 = .ok (.shr 0xA 0xB) := by decide
theorem test_witness_OpcodeTableSelectsTheInstruction : decodeWord 0x8AB6 = .ok (.shr 0xA 0xB) ∧
    (0x8AB6 : Word) &&& (Instr.shr 0 0).row.mask = (Instr.shr 0 0).row.value := by decide
theorem test_witness_IllegalWordsAreExactlyTheListed :
    (∃ e, decodeWord 0x00E1 = .error e) ∧ (∃ e, decodeWord 0x8128 = .error e) ∧ (∃ e, decodeWord 0xE19F = .error e) ∧
    (∃ e, decodeWord 0xF066 = .error e) ∧ ¬ ∃ e, decodeWord 0xFF65 = .error e :=
  ⟨⟨.family0, by decide⟩, ⟨.family8, by decide⟩, ⟨.familyE, by decide⟩, ⟨.familyF, by decide⟩, fun ⟨e, h⟩ => by
    have hk : decodeWord 0xFF65 = .ok (.ldRegs 0xF) := by decide
    cases hk.symm.trans h⟩
theorem test_witness_IgnoredBitsSelectNothing : 0 < (r0.setSp 1).sp.val := by decide
theorem test_witness_StepRunsTheDecodedInstruction : stopped.halted = true ∧
    (waiting.halted = false ∧ waiting.awaitingKey = true) ∧
    ((ready 0x6A12).halted = false ∧ (ready 0x6A12).awaitingKey = false ∧
      decodeWord (fetchWord (ready 0x6A12)) = .ok (.ldImm 0xA 0x12)) ∧
    (r0.halted = false ∧ r0.awaitingKey = false ∧ decodeWord (fetchWord r0) = .error .family0) := by decide
theorem test_witness_FetchReadsTwoMaskedBytesHighFirst : (r0.setPc 0x2FFF).pc.toNat % 4096 = 0xFFF := by decide
theorem test_witness_WaitingStepTakesTheLeastKey :
    (waiting.halted = false ∧ waiting.awaitingKey = true ∧ ∀ k, waiting.key k = false) ∧
    (let s := withKeys [0, 15] waiting
     s.halted = false ∧ s.awaitingKey = true ∧ s.key 0 = true ∧ ∀ j < 0, s.key j = false) ∧
    (let s := withKeys [15] waiting
     s.key 15 = true ∧ ∀ j < 15, s.key j = false) := by decide
theorem test_witness_WaitingStepEqualsRefetching : StepInv waiting ∧ waiting.awaitingKey = true := by
  refine ⟨⟨⟨by decide, fun a h => ?_, ⟨by decide, by decide⟩⟩, fun _ => by decide⟩, by decide⟩
  have hm : waiting.mem = [(0x200, 0xF3), (0x201, 0x0A)] := by decide
  rw [inFont, Bool.and_eq_true] at h
  have h1 : a ≤ 0x09F := of_decide_eq_true h.2
  rw [hm, memGet, if_neg (by omega), memGet, if_neg (by omega), memGet]
theorem test_witness_SelfJumpIsIdle : (ready 0x1200).halted = false ∧ (ready 0x1200).awaitingKey = false ∧
    decodeWord (fetchWord (ready 0x1200)) = .ok (.jp 0x200) ∧ (ready 0x1200).pc = (0x200 : Addr12).setWidth 16 := by
  decide
theorem test_witness_JumpSetsPc : (0x1ABC : Word) &&& 0xF000#16 = 0x1000#16 := by decide
theorem test_witness_JumpWithOffsetAddsV0 : (0xBFFF : Word) &&& 0xF000#16 = 0xB000#16 := by decide
theorem test_witness_CallPushesTheReturnAddress : (0x2300 : Word) &&& 0xF000#16 = 0x2000#16 ∧
    r0.sp.val < 16 ∧ (r0.setSp 15).sp.val < 16 ∧ (r0.setSp 16).sp.val = 16 := by decide
theorem test_witness_ReturnPopsTheReturnAddress : (0x07EE : Word) &&& 0xF0FF#16 = 0x00EE#16 ∧
    (r0.setSp 1).sp.val = (0 : Nib).val + 1 ∧ (r0.setSp 16).sp.val = (15 : Nib).val + 1 ∧ r0.sp.val = 0 := by decide
/-- A call to 0x300, where a return stands. -/
theorem test_witness_CallThenReturnResumesAfterTheCall :
    let s := withMem [(0x301, 0xEE)] ((ready 0x2300).setSp 15)
    s.halted = false ∧ s.awaitingKey = false ∧ s.sp.val < 16 ∧ decodeWord (fetchWord s) = .ok (.call 0x300) ∧
      (match step s with | .next t => decide (decodeWord (fetchWord t) = .ok (.ret 0)) | _ => false) = true := by decide
theorem test_witness_SkipsCompareForEquality : (0x3210 : Word) &&& 0xF000#16 = 0x3000#16 ∧
    (0x4210 : Word) &&& 0xF000#16 = 0x4000#16 ∧ (0x5121 : Word) &&& 0xF000#16 = 0x5000#16 ∧
    (0x912F : Word) &&& 0xF000#16 = 0x9000#16 := by decide
theorem test_witness_KeySkipsTestTheNamedKey : (0xE19E : Word) &&& 0xF0FF#16 = 0xE09E#16 ∧
    (0xE1A1 : Word) &&& 0xF0FF#16 = 0xE0A1#16 ∧
    (5 : Nib).val = ((withV [(1, 0x15)] r0).readV 1 &&& 0x0F#8).toNat ∧
    (15 : Nib).val = ((withV [(1, 0xFF)] r0).readV 1 &&& 0x0F#8).toNat := by decide
theorem test_witness_LoadImmediateWritesTheRegister : (0x6A12 : Word) &&& 0xF000#16 = 0x6000#16 := by decide
theorem test_witness_AddImmediateWrapsWithoutFlag : (0x71FF : Word) &&& 0xF000#16 = 0x7000#16 ∧ (15 : Nib) ≠ 1 := by
  decide
theorem test_witness_CopyAndLogicWriteOneRegister : (0x8120 : Word) &&& 0xF00F#16 = 0x8000#16 ∧
    (0x8121 : Word) &&& 0xF00F#16 = 0x8001#16 ∧ (0x8122 : Word) &&& 0xF00F#16 = 0x8002#16 ∧
    (0x8123 : Word) &&& 0xF00F#16 = 0x8003#16 := by decide
theorem test_witness_AddSetsTheCarryLast : (0x8124 : Word) &&& 0xF00F#16 = 0x8004#16 ∧ (14 : Nib) ≠ 15 ∧
    (0 : Nib) ≠ 14 ∧ (0 : Nib) ≠ 15 := by decide
theorem test_witness_SubtractsFlagNoBorrowLast : (0x8125 : Word) &&& 0xF00F#16 = 0x8005#16 ∧
    (0x8127 : Word) &&& 0xF00F#16 = 0x8007#16 ∧ (14 : Nib) ≠ 15 ∧ (0 : Nib) ≠ 14 ∧ (0 : Nib) ≠ 15 := by decide
theorem test_witness_ShiftsFlagTheBitShiftedOut : (0x8AB6 : Word) &&& 0xF00F#16 = 0x8006#16 ∧
    (0x812E : Word) &&& 0xF00F#16 = 0x800E#16 ∧ (14 : Nib) ≠ 15 ∧ (0 : Nib) ≠ 14 ∧ (0 : Nib) ≠ 15 := by decide
theorem test_witness_RandomByteIsMasked : (0xC10F : Word) &&& 0xF000#16 = 0xC000#16 ∧
    (ready 0xC10F).halted = false ∧ (ready 0xC10F).awaitingKey = false ∧
    decodeWord (fetchWord (ready 0xC10F)) = .ok (.rnd 1 0x0F) := by decide
theorem test_witness_StepIgnoresRandUnlessRnd : stopped.halted = true ∧ waiting.awaitingKey = true ∧
    ∀ x nn, decodeWord (fetchWord (ready 0x6A12)) ≠ .ok (.rnd x nn) := by
  have h : decodeWord (fetchWord (ready 0x6A12)) = .ok (.ldImm 0xA 0x12) := by decide
  refine ⟨by decide, by decide, fun x nn => ?_⟩
  rw [h]
  simp
theorem test_witness_SetIndexLoadsTheAddress : (0xA2F0 : Word) &&& 0xF000#16 = 0xA000#16 := by decide
theorem test_witness_IndexAddAndGlyphAddress : (0xF21E : Word) &&& 0xF0FF#16 = 0xF01E#16 ∧
    (0xF429 : Word) &&& 0xF0FF#16 = 0xF029#16 := by decide
/-- The three digits of 255, and a block that starts below the font, ends in it, and wraps around memory. -/
theorem test_witness_BcdStoresThreeDigits : (0xF033 : Word) &&& 0xF0FF#16 = 0xF033#16 ∧
    (let s := withV [(0, 255)] (r0.setI 0x04E)
     2 = (s.readV 0).toNat / 100 ∧ 5 = (s.readV 0).toNat / 10 % 10 ∧ 5 = (s.readV 0).toNat % 10 ∧
       inFont (mask12 (blockAddr s.I 1)) = false ∧ inFont (mask12 (blockAddr s.I 2)) = true) ∧
    mask12 (blockAddr 0xFFFF 2) = 1 := by decide
theorem test_witness_StoreBlockWritesTheRegisters : (0xF255 : Word) &&& 0xF0FF#16 = 0xF055#16 ∧ (0 : Nib) ≤ 0 ∧
    (15 : Nib) ≤ 15 ∧ inFont (mask12 (blockAddr 0x041 15)) = true ∧ inFont (mask12 (blockAddr 0x041 14)) = false := by
  decide
theorem test_witness_LoadBlockReadsMemory : (0xFF65 : Word) &&& 0xF0FF#16 = 0xF065#16 := by decide
/-- The edges of the font region, and two addresses that agree modulo 4096. -/
theorem test_witness_StoresAreMaskedAndSpareTheFont : inFont 0x04F = false ∧ inFont 0x050 = true ∧
    inFont 0x09F = true ∧ inFont 0x0A0 = false ∧ mask12 0x104F = mask12 0xF04F := by decide
theorem test_witness_ClearDisplayTurnsEveryPixelOff : (0x0AE0 : Word) &&& 0xF0FF#16 = 0x00E0#16 := by decide

/-- One row 0x80 at 0x300. -/
abbrev oneDot : State := withMem [(0x300, 0x80)] (r0.setI 0x300)

theorem oneDot_covers : SpriteCovers oneDot 0 1 1 0 0 := ⟨0, by decide, 0, by decide, by decide, by decide, by decide⟩
theorem test_witness_DrawXorsWrapsAndFlagsCollision : (0xD125 : Word) &&& 0xF000#16 = 0xD000#16 ∧
    SpriteCovers oneDot 0 1 1 0 0 ∧
    (∃ px py, SpriteCovers (withPixels [(0, 0)] oneDot) 0 1 1 px py ∧
      pixel (withPixels [(0, 0)] oneDot).disp px py = true) ∧
    (∀ px py, SpriteCovers oneDot 0 1 1 px py → pixel oneDot.disp px py = false) ∧
    ∀ px py, ¬ SpriteCovers oneDot 0 1 0 px py := by
  refine ⟨by decide, oneDot_covers, ⟨0, 0, ⟨0, by decide, 0, by decide, by decide, by decide, by decide⟩, by decide⟩,
    fun px py _ => ?_, fun px py h => ?_⟩
  · have hd : oneDot.disp = clearDisplay := by decide
    rw [hd]
    simp [pixel, clearDisplay]
  · obtain ⟨r, hr, -⟩ := h
    exact absurd hr (Nat.not_lt_zero r)
theorem test_witness_DrawingTwiceRestoresTheDisplay :
    let t := oneDot.setDisp (setPixel 0 0 true oneDot.disp)
    exec (.drw 0 1 1) oneDot = .next t ∧ t.I = oneDot.I ∧ SameMemory oneDot t ∧ t.readV 0 = oneDot.readV 0 ∧
      (∀ px py, SpriteCovers oneDot 0 1 1 px py → pixel oneDot.disp px py = false) ∧
      ∃ r < (1 : Nib).val, memRead oneDot (oneDot.I + BitVec.ofNat 16 r) ≠ 0 :=
  ⟨next_of_answer (by decide), rfl, fun _ => rfl, rfl, test_witness_DrawXorsWrapsAndFlagsCollision.2.2.2.1, 0, by decide, by decide⟩
theorem test_witness_WaitForKeyTakesTheLeastPressedKey : (0xF30A : Word) &&& 0xF0FF#16 = 0xF00A#16 ∧
    (∀ k, r0.key k = false) ∧ ((withKeys [0] r0).key 0 = true ∧ ∀ j < 0, (withKeys [0] r0).key j = false) ∧
    ((withKeys [15] r0).key 15 = true ∧ ∀ j < 15, (withKeys [15] r0).key j = false) := by decide
theorem test_witness_TimerInstructionsMoveOneByte : (0xF507 : Word) &&& 0xF0FF#16 = 0xF007#16 ∧
    (0xF515 : Word) &&& 0xF0FF#16 = 0xF015#16 ∧ (0xF518 : Word) &&& 0xF0FF#16 = 0xF018#16 := by decide
theorem test_witness_RegistersWrittenAreTheListed :
    exec (.addReg 1 2) r0 = .next (writeResultFlag 1 0 0 r0) ∧ (2 : Nib) ∉ (Instr.addReg 1 2).writesV ∧
    (14 : Nib) ∉ (Instr.ldRegs 13).writesV := ⟨next_of_answer (by decide), by decide, by decide⟩
/-- Two states that differ in `V[0]` alone, which `8124` does not read. -/
theorem test_witness_RegistersReadAreTheListed :
    let s' := withV [(0, 0x33)] r0
    s' = { r0 with V := s'.V } ∧ (∀ r ∈ (Instr.addReg 1 2).readsV, s'.readV r = r0.readV r) ∧ s' ≠ r0 ∧
      exec (.addReg 1 2) r0 = .next (writeResultFlag 1 0 0 r0) :=
  ⟨by decide, by decide, by decide, next_of_answer (by decide)⟩
theorem test_witness_OnlyTheNamedInstructionsWrite : exec (.ldF 0) r0 = .next (r0.setI 0x050) :=
  next_of_answer (by decide)
theorem test_witness_OnlyControlInstructionsMovePc : exec (.seImm 0 0) r0 = .next (r0.setPc 0x0202) :=
  next_of_answer (by decide)
theorem test_witness_MemoryOutsideTheStoredBytesIsUnchanged : exec (.ldF 0) r0 = .next (r0.setI 0x050) ∧
    (Instr.ldF 0).storedBytes = 0 ∧ exec (.stRegs 0) (withV [(0, 7)] (r0.setI 0x300)) =
      .next (withMem [(0x300, 7)] (withV [(0, 7)] (r0.setI 0x300))) ∧
    mask12 0x301 ≠ mask12 (blockAddr 0x300 0) :=
  ⟨next_of_answer (by decide), rfl, next_of_answer (by decide), by decide⟩

/-- The answer of a step of a core that does not halt before it and halts in it, with its code. -/
def haltsWith (code : Nat) (s : State) : Bool :=
  !s.halted && match step s with
    | .next t => t.halted && t.errCode.toNat == code
    | _ => false

theorem test_witness_FaultsArePreciseAndListed : haltsWith 2 ((ready 0x2300).setSp 16) = true ∧
    haltsWith 3 (ready 0x07EE) = true ∧ haltsWith 4 r0 = true := by decide
theorem test_witness_StepKeepsTheInvariant : StepInv waiting ∧ step waiting = .next waiting :=
  ⟨test_witness_WaitingStepEqualsRefetching.1, next_of_answer (by decide)⟩
theorem test_witness_EveryEventKeepsTheInvariant : EventInv waiting :=
  test_witness_WaitingStepEqualsRefetching.1.base
theorem test_witness_NoEventButResetChangesTheFont : Event.load [0x6A] ≠ .reset ∧
    applyEvent (.load [0x6A]) r0 = .next (withMem [(0x200, 0x6A)] r0) :=
  ⟨by decide, next_of_answer (by decide)⟩
theorem test_witness_OnlyResetLeavesTheHaltedCondition :
    let es : List Event := [.setKeys 0x8001, .tick, .step 7, .load [0x6A]]
    stopped.halted = true ∧ Event.reset ∉ es ∧
      runEvents es stopped = .next (withMem [(0x200, 0x6A)] (withKeys [0, 15] stopped)) :=
  ⟨rfl, by decide, next_of_answer (by decide)⟩
theorem test_witness_OnlyResetLeavesTheHaltedCondition_loads :
    ∀ bytes, Event.load bytes ∈ [Event.tick, .load [0x6A]] → bytes.length ≤ 3584 := by
  intro bytes h
  simp only [List.mem_cons, List.not_mem_nil, or_false, reduceCtorEq, false_or, Event.load.injEq] at h
  subst h
  decide
theorem test_witness_LoadCopiesTheImageOrFaults : (List.replicate 3584 (0x12 : Byte)).length ≤ 3584 ∧
    3584 < (List.replicate 3585 (0x12 : Byte)).length := by
  rw [List.length_replicate, List.length_replicate]
  exact ⟨Nat.le_refl _, Nat.lt_succ_self _⟩
theorem test_witness_StrobesTogetherRunInTheListedOrder :
    ∃ t, stepWith 0x5C (setKeys 0x0008 (ready 0xF30A)) = .next t ∧ t.readV 3 = 3 := by
  refine ⟨((setKeys 0x0008 (ready 0xF30A)).setV 3 3).setPc 0x0202, next_of_answer (by decide), by decide⟩

end Sys2Proof.Machine.Tests
end

section
/-! PROOF. What one instruction can do to the state, said once: `Effect` names the kinds of change, `exec_effect`
says that every answer of `exec` is one of them, and the frames of 10_state.md sections 2 to 9 are read off it. -/

namespace Sys2Proof

/-- The six skips (41_control_flow.md R155 to R158; 45_keypad_timers.md R235, R236). -/
def Instr.IsSkip (i : Instr) : Prop :=
  (∃ x nn, i = .seImm x nn) ∨ (∃ x nn, i = .sneImm x nn) ∨ (∃ x y ign, i = .seReg x y ign) ∨
    (∃ x y ign, i = .sneReg x y ign) ∨ (∃ x, i = .skp x) ∨ ∃ x, i = .sknp x

/-- The three instructions that set `I` (10_state.md R25). -/
def Instr.SetsIndex (i : Instr) : Prop :=
  (∃ nnn, i = .ldI nnn) ∨ (∃ x, i = .addIVx x) ∨ ∃ x, i = .ldF x

theorem mem_regsUpTo (x r : Nib) : r ∈ regsUpTo x ↔ r ≤ x := by simp [regsUpTo]

end Sys2Proof

namespace Sys2Proof.Machine

/-- `t` is `s` but for what stores can do to memory: the canonical form is kept and the font is not reached
(20_memory.md R63). -/
structure StoresOnly (s t : State) : Prop where
  frame : t = s.setMem t.mem
  wf : memWf s.mem = true → memWf t.mem = true
  font : ∀ a, inFont a = true → memGet t.mem a = memGet s.mem a

/-- Every way instruction `i`, executed in `s`, can answer a next state. -/
inductive Effect (s : State) : Instr → State → Prop
  /-- General registers of R22's column "writes", and nothing else. -/
  | registers {i : Instr} (v : Vector Byte 16) (h : ∀ r ∉ i.writesV, v[r.val] = s.readV r) :
      Effect s i { s with V := v }
  | random (x : Nib) (nn b : Byte) : Effect s (.rnd x nn) ((afterDraw s).setV x b)
  | jump (nnn : Addr12) : Effect s (.jp nnn) (s.setPc (zextAddr nnn))
  | jumpV0 (nnn : Addr12) (w : Word) : Effect s (.jpV0 nnn) (s.setPc w)
  | skip {i : Instr} (h : i.IsSkip) (c : Bool) : Effect s i (skipIf c s)
  | call (nnn : Addr12) (h : s.sp.val < 16) : Effect s (.call nnn)
      (((s.setStack ⟨s.sp.val, h⟩ s.pc).setSp ⟨s.sp.val + 1, Nat.succ_lt_succ h⟩).setPc (zextAddr nnn))
  | callOverflow (nnn : Addr12) (h : s.sp.val = 16) :
      Effect s (.call nnn) (raise .stackOverflow (encode (.call nnn)) (instrAddr s) s)
  | ret (ign : Nib) (n : Fin 17) (w : Word) (h : s.sp.val = n.val + 1) :
      Effect s (.ret ign) ((s.setSp n).setPc w)
  | retUnderflow (ign : Nib) (h : s.sp.val = 0) :
      Effect s (.ret ign) (raise .stackUnderflow (encode (.ret ign)) (instrAddr s) s)
  | clear (ign : Nib) : Effect s (.cls ign) (s.setDisp clearDisplay)
  | draw (x y n : Nib) (d : Vector (Vector Bool 64) 32) (f : Byte) :
      Effect s (.drw x y n) ((s.setDisp d).setVF f)
  | index {i : Instr} (h : i.SetsIndex) (w : Word) : Effect s i (s.setI w)
  | store {i : Instr} (m : List Host.Cell) (h : StoresOnly s (s.setMem m)) : Effect s i (s.setMem m)
  | delayTimer (x : Nib) (b : Byte) : Effect s (.ldDtVx x) (s.setDT b)
  | soundTimer (x : Nib) (b : Byte) : Effect s (.ldStVx x) (s.setST b)
  | wait (x : Nib) : Effect s (.ldVxK x) (((s.setPc (instrAddr s)).setAwaiting true).setKeyDest x)

/-! ## Stores -/

theorem StoresOnly.refl (s : State) : StoresOnly s s := ⟨rfl, id, fun _ _ => rfl⟩

theorem StoresOnly.write {s t : State} (h : StoresOnly s t) (a : Word) (v : Byte) :
    StoresOnly s (memWrite a v t) where
  frame := (memWrite_eq t a v).trans (by rw [h.frame]; rfl)
  wf hm := memWrite_memWf t a v (h.wf hm)
  font b hb := (memWrite_font t a v b hb).trans (h.font b hb)

theorem storesOnly_storeBlock (k : Nat) (s : State) : StoresOnly s (storeBlock k s) := by
  induction k with
  | zero => exact .refl s
  | succ k ih => exact ih.write _ _

theorem Effect.of_storesOnly {i : Instr} {s t : State} (h : StoresOnly s t) : Effect s i t :=
  h.frame ▸ .store t.mem (h.frame ▸ h)

/-! ## Register results -/

/-- One register that R22 lists is written. -/
theorem Effect.setV {i : Instr} (s : State) (x : Nib) (b : Byte) (hx : x ∈ i.writesV) : Effect s i (s.setV x b) :=
  .registers _ fun r hr => by
    have : r ≠ x := fun e => hr (e ▸ hx)
    exact (s.readV_setV x r b).trans (if_neg this)

/-- The result and the flag are written, both listed by R22. -/
theorem Effect.writeResultFlag {i : Instr} (s : State) (x : Nib) (v f : Byte) (hi : i.writesV = [x, 15]) :
    Effect s i (writeResultFlag x v f s) :=
  .registers _ fun r hr => by
    simp only [hi, List.mem_cons, List.not_mem_nil, or_false, not_or] at hr
    exact (s.readV_writeResultFlag x r v f).trans (by rw [if_neg hr.2, if_neg hr.1])

theorem Effect.loadBlock (s : State) (x : Nib) : Effect s (.ldRegs x) (loadBlock (x.val + 1) s) := by
  rw [loadBlock_eq]
  refine .registers _ fun r hr => ?_
  have hr : ¬ r.val < x.val + 1 := fun h => hr ((mem_regsUpTo x r).2 (Nat.le_of_lt_succ h))
  exact (readV_loadBlock _ s r x.isLt).trans (if_neg hr)

/-! ## Stack and keypad, an equation per case -/

section
variable (s : State)

theorem execCall_room (nnn : Addr12) (h : s.sp.val < 16) :
    execCall nnn s = .next
      (((s.setStack ⟨s.sp.val, h⟩ s.pc).setSp ⟨s.sp.val + 1, Nat.succ_lt_succ h⟩).setPc (zextAddr nnn)) := by
  rw [execCall, push_eq _ _ h]

theorem execCall_full (nnn : Addr12) (h : ¬ s.sp.val < 16) :
    execCall nnn s = .next (raise .stackOverflow (encode (.call nnn)) (instrAddr s) s) := by
  rw [execCall, push_full _ _ h]

theorem execRet_entry (ign : Nib) (n : Nat) (hn : n < 16) (h : s.sp.val = n + 1) :
    execRet ign s = .next ((s.setSp ⟨n, Nat.lt_succ_of_lt hn⟩).setPc s.stack[n]) := by
  rw [execRet, pop_eq s n hn h]

theorem execRet_empty (ign : Nib) (h : s.sp.val = 0) :
    execRet ign s = .next (raise .stackUnderflow (encode (.ret ign)) (instrAddr s) s) := by
  rw [execRet, pop_empty s h]

/-- The stack is empty, or it holds a newest entry `n`. -/
theorem sp_cases : s.sp.val = 0 ∨ ∃ n < 16, s.sp.val = n + 1 := by
  rcases Nat.eq_zero_or_eq_succ_pred s.sp.val with h | h
  · exact .inl h
  · exact .inr ⟨_, by omega, h⟩

theorem execLdVxK_pressed (x k : Nib) (h : lowestKey s = some k) :
    execLdVxK x s = .next (s.setV x (keyByte k)) := by
  rw [execLdVxK, h]

theorem execLdVxK_none (x : Nib) (h : lowestKey s = none) :
    execLdVxK x s = .next (((s.setPc (instrAddr s)).setAwaiting true).setKeyDest x) := by
  rw [execLdVxK, h]
end

/-! ## Every instruction -/

/-- Every instruction answers a next state, by one of the listed effects. -/
theorem exec_effect (i : Instr) (s : State) : ∃ t, exec i s = .next t ∧ Effect s i t := by
  cases i with
  | cls ign => exact ⟨_, rfl, .clear ign⟩
  | jp nnn => exact ⟨_, rfl, .jump nnn⟩
  | jpV0 nnn => exact ⟨_, rfl, .jumpV0 nnn _⟩
  | call nnn =>
    by_cases h : s.sp.val < 16
    · exact ⟨_, execCall_room s nnn h, .call nnn h⟩
    · exact ⟨_, execCall_full s nnn h, .callOverflow nnn (by omega)⟩
  | ret ign =>
    rcases sp_cases s with h | ⟨n, hn, h⟩
    · exact ⟨_, execRet_empty s ign h, .retUnderflow ign h⟩
    · exact ⟨_, execRet_entry s ign n hn h, .ret ign _ _ h⟩
  | seImm | sneImm | seReg | sneReg | skp | sknp => exact ⟨_, rfl, .skip (by simp [Instr.IsSkip]) _⟩
  | ldImm x | addImm x | ldReg x | orReg x | andReg x | xorReg x | ldVxDt x =>
    exact ⟨_, rfl, .setV s x _ (List.mem_singleton_self x)⟩
  | addReg x | subReg x | shr x | subn x | shl x => exact ⟨_, rfl, .writeResultFlag s x _ _ rfl⟩
  | rnd x nn => exact ⟨_, rfl, .random x nn _⟩
  | ldI | addIVx | ldF => exact ⟨_, rfl, .index (by simp [Instr.SetsIndex]) _⟩
  | drw x y n => exact ⟨_, rfl, .draw x y n _ _⟩
  | ldVxK x =>
    cases h : lowestKey s with
    | some k => exact ⟨_, execLdVxK_pressed s x k h, .setV s x _ (List.mem_singleton_self x)⟩
    | none => exact ⟨_, execLdVxK_none s x h, .wait x⟩
  | ldDtVx x => exact ⟨_, rfl, .delayTimer x _⟩
  | ldStVx x => exact ⟨_, rfl, .soundTimer x _⟩
  | ldB => exact ⟨_, rfl, .of_storesOnly ((((StoresOnly.refl s).write _ _).write _ _).write _ _)⟩
  | stRegs => exact ⟨_, rfl, .of_storesOnly (storesOnly_storeBlock _ s)⟩
  | ldRegs x => exact ⟨_, rfl, .loadBlock s x⟩

/-- The inversion: a next state that `exec` answers is one of the listed effects. -/
theorem effect_of_exec {i : Instr} {s t : State} (h : exec i s = .next t) : Effect s i t := by
  obtain ⟨u, hu, he⟩ := exec_effect i s
  cases h.symm.trans hu
  exact he

/-! ## The frames -/

/-- A skip leaves `pc` at the incremented value or adds 2 to it. -/
theorem skipIf_pc (c : Bool) (s : State) : (skipIf c s).pc = s.pc ∨ (skipIf c s).pc = s.pc + 2 := by
  cases c <;> simp [skipIf, skip]

/-- Settles O40: the register results stay within R22's list, and the other effects write no general register. -/
theorem registersWrittenAreTheListed : Obligations.RegistersWrittenAreTheListed := by
  intro i s t h r hr
  cases effect_of_exec h with
  | registers v hv => exact hv r hr
  | random x nn b =>
    have : r ≠ x := by simpa [Instr.writesV] using hr
    simp [State.readV_setV, this, afterDraw]
  | draw x y n d f =>
    have : r ≠ 15 := by simpa [Instr.writesV] using hr
    simp [State.setVF, State.readV_setV, this]
  | skip hi c => rw [skipIf_eq]; rfl
  | jump | jumpV0 | call | callOverflow | ret | retUnderflow | clear | index | store | delayTimer | soundTimer
    | wait => rfl

/-- Settles O42: each effect touches its own pieces of the state, and each special piece belongs to the effects of
the instructions named for it. -/
theorem onlyTheNamedInstructionsWrite : Obligations.OnlyTheNamedInstructionsWrite := by
  intro i s t h
  cases effect_of_exec h with
  | registers v hv => simp
  | skip hi c => simp [skipIf_eq]
  | index hi w => simpa using .inr hi
  | callOverflow nnn hsp => simp [raise, hsp]
  | retUnderflow ign hsp => simp [raise, hsp]
  | draw x y n d f => simp [State.setVF]
  | random x nn b => simp [afterDraw]
  | jump | jumpV0 | call | ret | clear | store | delayTimer | soundTimer | wait => simp

/-- Settles O43: among the effects only those of jumps, calls, returns, skips and the wait set `pc`. -/
theorem onlyControlInstructionsMovePc : Obligations.OnlyControlInstructionsMovePc := by
  intro i s t h
  cases effect_of_exec h with
  | skip hi c =>
    rcases skipIf_pc c s with hpc | hpc
    · exact .inl hpc
    · exact .inr (.inr (.inr (.inr (.inr (.inl ⟨hpc, hi⟩)))))
  | wait x => simp [instrAddr]
  | jump | jumpV0 | call | callOverflow | ret | retUnderflow => simp
  | registers | random | clear | draw | index | store | delayTimer | soundTimer => exact .inl rfl

end Sys2Proof.Machine
end

section
/-! PROOF. The reset state, and what every event keeps (10_state.md R35, R37; 20_memory.md R63, R67; 60_exceptions.md
R260, R262). -/

namespace Sys2Proof.Machine

/-! ## Reset -/

/-- 20_memory.md R66: outside the font region the reset contents are 0x00. -/
theorem blank_outside_font (a : Nat) (h : ¬ (0x050 ≤ a ∧ a ≤ 0x09F)) : blank a = 0 := by
  have : inFont a = false := by simpa [inFont] using h
  simp [blank, this]

/-- 20_memory.md R66, R67: in the font region the reset contents are the font table. -/
theorem blank_font : (List.range 80).map (fun k => blank (0x050 + k)) = fontBytes := by decide

/-- Settles O56: every field of `State.reset` is its listed value, and its memory is the empty list, which reads as the
blank contents. -/
theorem resetGivesTheListedValues : Obligations.ResetGivesTheListedValues := by
  refine ⟨fun r => ?registers, rfl, rfl, fun j => ?stack, rfl, rfl, rfl, fun k => ?keys, pixel_clearDisplay,
    blank_outside_font, blank_font, rfl, rfl, rfl, rfl, rfl, rfl, rfl, fun s => rfl⟩
  case registers => simp [State.readV, State.reset]
  case stack => simp [State.reset]
  case keys => simp [State.key, State.reset]

/-! ## The event invariant -/

theorem eventInv_reset : EventInv State.reset where
  memory := rfl
  font _ _ := rfl
  latch := by simp [LatchConsistent, State.reset]

/-- The invariant speaks of memory, `halted` and `err_code` alone. -/
theorem EventInv.of_same {s t : State} (h : EventInv s) (hmem : t.mem = s.mem) (hhalt : t.halted = s.halted)
    (hcode : t.errCode = s.errCode) : EventInv t where
  memory := hmem ▸ h.memory
  font a ha := hmem ▸ h.font a ha
  latch := by
    have := h.latch
    rwa [LatchConsistent, hhalt, hcode]

theorem EventInv.stores {s t : State} (h : EventInv s) (hst : StoresOnly s t) : EventInv t where
  memory := hst.wf h.memory
  font a ha := (hst.font a ha).trans (h.font a ha)
  latch := by
    have := h.latch
    rwa [LatchConsistent, hst.frame]

/-- A raised error is consistent, whatever the report said before (60_exceptions.md R262). -/
theorem latchConsistent_raise (f : ErrKind) (w a : Word) (s : State) : LatchConsistent (raise f w a s) := by
  cases f <;> simp [LatchConsistent, raise, ErrKind.code]

theorem EventInv.raise {s : State} (h : EventInv s) (f : ErrKind) (w a : Word) : EventInv (raise f w a s) where
  memory := h.memory
  font := h.font
  latch := latchConsistent_raise f w a s

/-! ## Load -/

/-- An image that fits lies above the font and within memory, so it is stored as by stores. -/
theorem storesOnly_placeBytes (bytes : List Byte) (s : State) (h : bytes.length ≤ Config.maxRom) :
    StoresOnly s (s.setMem (placeBytes bytes Config.progBase s.mem)) where
  frame := rfl
  wf hm := memWf_placeBytes bytes _ s.mem hm (by simp only [Config.maxRom, Config.progBase] at *; omega)
  font a ha := by
    have : ¬ (Config.progBase ≤ a ∧ a < Config.progBase + bytes.length) := by
      simp only [inFont, Config.fontEnd, Bool.and_eq_true, decide_eq_true_eq] at ha
      simp only [Config.progBase]
      omega
    exact (memGet_placeBytes ..).trans (if_neg this)

theorem EventInv.load {s : State} (h : EventInv s) (bytes : List Byte) : EventInv (load bytes s) := by
  unfold Machine.load
  split
  · exact h.raise ..
  · next hlen => exact h.stores (storesOnly_placeBytes bytes s (Nat.le_of_not_lt hlen))

/-! ## Step -/

/-- Each effect of an instruction stores, or raises an error, or touches none of what the invariant speaks of. -/
theorem EventInv.effect {i : Instr} {s t : State} (h : EventInv s) (he : Effect s i t) : EventInv t := by
  cases he with
  | store m hst => exact h.stores hst
  | callOverflow | retUnderflow => exact h.raise ..
  | skip hi c => exact skipIf_eq c s ▸ h.of_same rfl rfl rfl
  | registers | random | jump | jumpV0 | call | ret | clear | draw | index | delayTimer | soundTimer | wait =>
    exact h.of_same rfl rfl rfl

theorem EventInv.completeOrKeepWaiting {s : State} (h : EventInv s) : EventInv (completeOrKeepWaiting s) := by
  obtain ⟨k, -, hdone⟩ | ⟨-, hkept⟩ := completeOrKeepWaiting_cases s
  · rw [hdone]
    exact h.of_same rfl rfl rfl
  · rwa [hkept]

/-- Every step answers a next state, and that state meets the invariant again. -/
theorem EventInv.step {s : State} (h : EventInv s) : ∃ t, step s = .next t ∧ EventInv t := by
  have hfetched : EventInv (fetchIncrement s) := h.of_same rfl rfl rfl
  obtain ⟨-, hstep⟩ | ⟨-, -, hstep⟩ | ⟨-, -, i, -, hstep⟩ | ⟨-, -, e, -, hstep⟩ := step_cases s
  · exact ⟨s, hstep, h⟩
  · exact ⟨_, hstep, h.completeOrKeepWaiting⟩
  · obtain ⟨t, ht, he⟩ := exec_effect i (fetchIncrement s)
    exact ⟨t, hstep.trans ht, hfetched.effect he⟩
  · exact ⟨_, hstep, hfetched.raise ..⟩

/-- The byte lined up for the step is no part of the invariant. -/
theorem EventInv.stepWith {s : State} (h : EventInv s) (rand : Byte) :
    ∃ t, stepWith rand s = .next t ∧ EventInv t := by
  have hs : EventInv { s with rands := rand :: s.rands } := h.of_same rfl rfl rfl
  obtain ⟨t, ht, hinv⟩ := hs.step
  refine ⟨{ t with rands := s.rands }, ?_, hinv.of_same rfl rfl rfl⟩
  rw [Machine.stepWith, ht]

/-- Settles O48, event by event. -/
theorem everyEventKeepsTheInvariant : Obligations.EveryEventKeepsTheInvariant := by
  intro e s h
  cases e with
  | reset => exact ⟨_, rfl, eventInv_reset.of_same rfl rfl rfl⟩
  | load bytes => exact ⟨_, rfl, h.load bytes⟩
  | setKeys k => exact ⟨_, rfl, h.of_same (State.setK_mem ..) (State.setK_halted ..) (State.setK_errCode ..)⟩
  | tick => exact ⟨_, rfl, h.of_same rfl rfl rfl⟩
  | step rand => exact h.stepWith rand

end Sys2Proof.Machine
end

section
/-! PROOF. What an instruction does depends on no general register outside R22's column "reads" (10_state.md R22). Two
runs are compared update by update: `Follows` is the relation that the two answers must stand in, it holds at the start,
and every update of the state keeps it. -/

namespace Sys2Proof.Machine

/-- Started in `s` and `s'`, two runs stand at `t` and `t'`: these agree in everything but general registers, and each
register has the same value in both or is as it was at the start in both. -/
structure Follows (s s' t t' : State) : Prop where
  rest : t' = { t with V := t'.V }
  reg : ∀ r : Nib, t'.readV r = t.readV r ∨ (t.readV r = s.readV r ∧ t'.readV r = s'.readV r)

namespace Follows
variable {s s' t t' : State}

theorem start (h : s' = { s with V := s'.V }) : Follows s s' s s' := ⟨h, fun _ => .inr ⟨rfl, rfl⟩⟩

/-- The same byte is written to the same register in both runs. -/
theorem setV (h : Follows s s' t t') (x : Nib) (b : Byte) : Follows s s' (t.setV x b) (t'.setV x b) where
  rest := by rw [h.rest]; rfl
  reg r := by
    simp only [State.readV_setV]
    split
    · exact .inl rfl
    · exact h.reg r

/-- An update that neither reads nor writes general registers is made in both runs. -/
theorem update (h : Follows s s' t t') (u : State → State)
    (hu : ∀ q v, u { q with V := v } = { u q with V := v }) : Follows s s' (u t) (u t') where
  rest := by rw [h.rest, hu, hu]
  reg r := by
    have hV : ∀ q, (u q).readV r = q.readV r := fun q => congrArg (·.readV r) (hu q q.V)
    rw [hV, hV]
    exact h.reg r

theorem writeResultFlag (h : Follows s s' t t') (x : Nib) (v f : Byte) :
    Follows s s' (writeResultFlag x v f t) (writeResultFlag x v f t') := (h.setV x v).setV 15 f

theorem skipIf (h : Follows s s' t t') (c : Bool) : Follows s s' (skipIf c t) (skipIf c t') :=
  h.update _ fun q v => by rw [skipIf_eq, skipIf_eq]

theorem memWrite (h : Follows s s' t t') (a : Word) (b : Byte) : Follows s s' (memWrite a b t) (memWrite a b t') :=
  h.update _ fun q v => by unfold Machine.memWrite; split <;> rfl

end Follows

/-! ## Instructions that do more than read registers and update once -/

section
variable {s s' : State}

/-- Storing registers 0 to `k - 1` that read alike. -/
theorem follows_storeBlock (h : s' = { s with V := s'.V }) (k : Nat)
    (hr : ∀ j < k, s'.readV (Fin.ofNat 16 j) = s.readV (Fin.ofNat 16 j)) :
    Follows s s' (storeBlock k s) (storeBlock k s') := by
  induction k with
  | zero => exact .start h
  | succ k ih =>
    have hI : s'.I = s.I := by rw [h]
    simp only [storeBlock, storeBlock_I, storeBlock_readV, hI, hr k (Nat.lt_succ_self k)]
    exact (ih fun j hj => hr j (Nat.lt_succ_of_lt hj)).memWrite _ _

/-- A load of a block reads memory alone. -/
theorem follows_loadBlock (h : s' = { s with V := s'.V }) (k : Nat) :
    Follows s s' (loadBlock k s) (loadBlock k s') := by
  induction k with
  | zero => exact .start h
  | succ k ih =>
    have hI : s'.I = s.I := by rw [h]
    have hmem : ∀ a, memRead s' a = memRead s a := fun a => by rw [h]; rfl
    simp only [loadBlock, loadBlock_I, loadBlock_memRead, hI, hmem]
    exact ih.setV _ _

theorem follows_execCall (h : s' = { s with V := s'.V }) (nnn : Addr12) :
    ∃ t t', execCall nnn s = .next t ∧ execCall nnn s' = .next t' ∧ Follows s s' t t' := by
  have hsp : s'.sp = s.sp := by rw [h]
  have hpc : s'.pc = s.pc := by rw [h]
  by_cases hroom : s.sp.val < 16
  · refine ⟨_, _, execCall_room s nnn hroom, execCall_room s' nnn (hsp ▸ hroom), ?_⟩
    simp only [hsp, hpc]
    exact (((Follows.start h).update (State.setStack _ _) fun _ _ => rfl).update (State.setSp _)
      fun _ _ => rfl).update (State.setPc _) fun _ _ => rfl
  · refine ⟨_, _, execCall_full s nnn hroom, execCall_full s' nnn (hsp ▸ hroom), ?_⟩
    exact (Follows.start h).update (fun q => raise _ _ (instrAddr q) q) fun _ _ => rfl

theorem follows_execRet (h : s' = { s with V := s'.V }) (ign : Nib) :
    ∃ t t', execRet ign s = .next t ∧ execRet ign s' = .next t' ∧ Follows s s' t t' := by
  have hsp : s'.sp = s.sp := by rw [h]
  rcases sp_cases s with hempty | ⟨n, hn, hheld⟩
  · refine ⟨_, _, execRet_empty s ign hempty, execRet_empty s' ign (hsp ▸ hempty), ?_⟩
    exact (Follows.start h).update (fun q => raise _ _ (instrAddr q) q) fun _ _ => rfl
  · refine ⟨_, _, execRet_entry s ign n hn hheld, execRet_entry s' ign n hn (hsp ▸ hheld), ?_⟩
    exact (Follows.start h).update (fun q => (q.setSp _).setPc q.stack[n]) fun _ _ => rfl

theorem follows_execLdVxK (h : s' = { s with V := s'.V }) (x : Nib) :
    ∃ t t', execLdVxK x s = .next t ∧ execLdVxK x s' = .next t' ∧ Follows s s' t t' := by
  have hkeys : lowestKey s' = lowestKey s := by rw [h]; rfl
  cases hk : lowestKey s with
  | some k =>
    exact ⟨_, _, execLdVxK_pressed s x k hk, execLdVxK_pressed s' x k (hkeys.trans hk), (Follows.start h).setV x _⟩
  | none =>
    refine ⟨_, _, execLdVxK_none s x hk, execLdVxK_none s' x (hkeys.trans hk), ?_⟩
    exact (Follows.start h).update (fun q => ((q.setPc (instrAddr q)).setAwaiting true).setKeyDest x) fun _ _ => rfl

/-! ## Every instruction -/

/-- Two runs of one instruction that agree on the registers it reads. -/
theorem exec_follows (i : Instr) (h : s' = { s with V := s'.V }) (hr : ∀ r ∈ i.readsV, s'.readV r = s.readV r) :
    ∃ t t', exec i s = .next t ∧ exec i s' = .next t' ∧ Follows s s' t t' := by
  have h0 := Follows.start h
  have hmem : ∀ a, memRead s' a = memRead s a := fun a => by rw [h]; rfl
  have hkey : ∀ k, s'.key k = s.key k := fun k => by rw [h]; rfl
  have hI : s'.I = s.I := by rw [h]
  have hDT : s'.DT = s.DT := by rw [h]
  have hdisp : s'.disp = s.disp := by rw [h]
  have hdraw : drawByte s' = drawByte s := by rw [h]; rfl
  cases i with
  | call nnn => exact follows_execCall h nnn
  | ret ign => exact follows_execRet h ign
  | ldVxK x => exact follows_execLdVxK h x
  | cls => exact ⟨_, _, rfl, rfl, h0.update (State.setDisp _) fun _ _ => rfl⟩
  | jp => exact ⟨_, _, rfl, rfl, h0.update (State.setPc _) fun _ _ => rfl⟩
  | ldI => exact ⟨_, _, rfl, rfl, h0.update (State.setI _) fun _ _ => rfl⟩
  | ldImm => exact ⟨_, _, rfl, rfl, h0.setV _ _⟩
  | ldVxDt => exact ⟨_, _, rfl, rfl, hDT ▸ h0.setV _ _⟩
  | rnd x nn =>
    refine ⟨_, _, rfl, rfl, ?_⟩
    rw [hdraw]
    exact (h0.update afterDraw fun _ _ => rfl).setV _ _
  | jpV0 nnn =>
    refine ⟨_, _, rfl, rfl, ?_⟩
    rw [hr 0 (by simp [Instr.readsV])]
    exact h0.update (State.setPc _) fun _ _ => rfl
  | seImm x | sneImm x | skp x | sknp x =>
    refine ⟨_, _, rfl, rfl, ?_⟩
    simp only [hr x (by simp [Instr.readsV]), hkey]
    exact h0.skipIf _
  | seReg x y | sneReg x y =>
    refine ⟨_, _, rfl, rfl, ?_⟩
    rw [hr x (by simp [Instr.readsV]), hr y (by simp [Instr.readsV])]
    exact h0.skipIf _
  | addImm x =>
    refine ⟨_, _, rfl, rfl, ?_⟩
    rw [hr x (by simp [Instr.readsV])]
    exact h0.setV _ _
  | ldReg x y =>
    refine ⟨_, _, rfl, rfl, ?_⟩
    rw [hr y (by simp [Instr.readsV])]
    exact h0.setV _ _
  | orReg x y | andReg x y | xorReg x y =>
    refine ⟨_, _, rfl, rfl, ?_⟩
    rw [hr x (by simp [Instr.readsV]), hr y (by simp [Instr.readsV])]
    exact h0.setV _ _
  | addReg x y | subReg x y | subn x y =>
    refine ⟨_, _, rfl, rfl, ?_⟩
    rw [hr x (by simp [Instr.readsV]), hr y (by simp [Instr.readsV])]
    exact h0.writeResultFlag _ _ _
  | shr x | shl x =>
    refine ⟨_, _, rfl, rfl, ?_⟩
    rw [hr x (by simp [Instr.readsV])]
    exact h0.writeResultFlag _ _ _
  | drw x y =>
    refine ⟨_, _, rfl, rfl, ?_⟩
    simp only [hr x (by simp [Instr.readsV]), hr y (by simp [Instr.readsV]), hmem, hI, hdisp]
    exact (h0.update (State.setDisp _) fun _ _ => rfl).setV _ _
  | ldDtVx x =>
    refine ⟨_, _, rfl, rfl, ?_⟩
    rw [hr x (by simp [Instr.readsV])]
    exact h0.update (State.setDT _) fun _ _ => rfl
  | ldStVx x =>
    refine ⟨_, _, rfl, rfl, ?_⟩
    rw [hr x (by simp [Instr.readsV])]
    exact h0.update (State.setST _) fun _ _ => rfl
  | addIVx x | ldF x =>
    refine ⟨_, _, rfl, rfl, ?_⟩
    simp only [hr x (by simp [Instr.readsV]), hI]
    exact h0.update (State.setI _) fun _ _ => rfl
  | ldB x =>
    refine ⟨_, _, rfl, rfl, ?_⟩
    simp only [hr x (by simp [Instr.readsV]), hI]
    exact ((h0.memWrite _ _).memWrite _ _).memWrite _ _
  | stRegs x =>
    refine ⟨_, _, rfl, rfl, follows_storeBlock h _ fun j hj => hr _ ((mem_regsUpTo ..).2 ?_)⟩
    simp only [Fin.le_def, Fin.val_ofNat]
    omega
  | ldRegs => exact ⟨_, _, rfl, rfl, follows_loadBlock h _⟩
end

/-- Settles O41, by following the two runs update by update. -/
theorem registersReadAreTheListed : Obligations.RegistersReadAreTheListed := by
  intro i s s' t h hr ht
  obtain ⟨u, t', hu, ht', hf⟩ := exec_follows i h hr
  cases ht.symm.trans hu
  exact ⟨t', ht', hf.rest, hf.reg⟩

end Sys2Proof.Machine
end

section
/-! PROOF. The memory family: the two bytes of an instruction decode back to it and are fetched high byte first
(20_memory.md R62, R64; 30_encoding.md R90, R94), and which bytes of memory an instruction or an event can change
(20_memory.md R63, R69; 10_state.md R37). -/

namespace Sys2Proof

/-! ## Decoding an encoding -/

/-- The dispatcher reads back each row of R94: `op` selects the row or the family, and the second key the row in it. -/
theorem decodeWord_encode (i : Instr) : decodeWord (encode i) = .ok i := by
  cases i with
  | cls | ret => simp [encode, decodeWord, decodeFamily0]
  | ldReg | orReg | andReg | xorReg | addReg | subReg | shr | subn | shl =>
    simp [encode, decodeWord, decodeFamily8]
  | skp | sknp => simp [encode, decodeWord, decodeFamilyE]
  | ldVxDt | ldVxK | ldDtVx | ldStVx | addIVx | ldF | ldB | stRegs | ldRegs =>
    simp [encode, decodeWord, decodeFamilyF]
  | jp | call | ldI | jpV0 | seImm | sneImm | ldImm | addImm | rnd | seReg | sneReg | drw =>
    simp [encode, decodeWord]

/-- Settles O1: the two bytes join to the encoded word again, and that word decodes to the instruction. -/
theorem decodeInvertsEncode : Obligations.DecodeInvertsEncode := by
  intro i rest
  simp [encodeBytes, decode, decodeWord_encode]

/-! ## The fetched word -/

/-- R64: the word of two bytes as a shift and an OR. -/
theorem wordOfBytes_eq_or (hi lo : Byte) : wordOfBytes hi lo = (hi.setWidth 16 <<< 8 ||| lo.setWidth 16) := by
  have hjoin : hi.toNat * 256 + lo.toNat = hi.toNat <<< 8 ||| lo.toNat := by
    rw [← Nat.shiftLeft_add_eq_or_of_lt lo.isLt, Nat.shiftLeft_eq]
  apply BitVec.eq_of_toNat_eq
  have hhi : hi.toNat < 65536 := by omega
  simp [wordOfBytes, hjoin, Nat.mod_eq_of_lt hhi]

end Sys2Proof

namespace Sys2Proof.Machine

/-- R62: a read is of the address modulo the size of memory. -/
theorem memRead_eq (s : State) (a : Word) : memRead s a = memGet s.mem (a.toNat % 4096) := by
  rw [memRead, mask12_eq]

theorem memRead_succ (s : State) (a : Word) : memRead s (a + 1) = memGet s.mem ((a.toNat + 1) % 4096) :=
  congrArg (memGet s.mem) (mask12_blockAddr a 1)

/-- Settles O9: the two reads are masked each on its own, so the second byte of a fetch at 0xFFF is at address 0. -/
theorem fetchReadsTwoMaskedBytesHighFirst : Obligations.FetchReadsTwoMaskedBytesHighFirst := by
  intro s
  refine ⟨wordOfBytes_eq_or .., memRead_eq .., memRead_succ .., fun hlast => ?_⟩
  have hwrap : (s.pc.toNat + 1) % 4096 = 0 := by omega
  rw [memRead_succ, hwrap]

/-! ## The bytes an instruction stores -/

theorem sameMemoryOutside_of_mem_eq {s t : State} (h : t.mem = s.mem) (k : Nat) : SameMemoryOutside k s t :=
  fun a _ => congrArg (memGet · (mask12 a)) h

/-- An instruction for which R69 lists no stored byte leaves memory as it was. -/
theorem mem_of_exec {i : Instr} {s t : State} (h : exec i s = .next t) (hi : i.storedBytes = 0) : t.mem = s.mem := by
  cases i with
  | ldB | stRegs => simp [Instr.storedBytes] at hi
  | call nnn =>
    by_cases hroom : s.sp.val < 16
    · cases h.symm.trans (execCall_room s nnn hroom); rfl
    · cases h.symm.trans (execCall_full s nnn hroom); rfl
  | ret ign =>
    rcases sp_cases s with hempty | ⟨n, hn, hheld⟩
    · cases h.symm.trans (execRet_empty s ign hempty); rfl
    · cases h.symm.trans (execRet_entry s ign n hn hheld); rfl
  | ldVxK x =>
    cases hk : lowestKey s with
    | some k => cases h.symm.trans (execLdVxK_pressed s x k hk); rfl
    | none => cases h.symm.trans (execLdVxK_none s x hk); rfl
  | seImm | sneImm | seReg | sneReg | skp | sknp => cases h; rw [skipIf_eq]
  | ldRegs => cases h; rw [loadBlock_eq]
  | cls | jp | jpV0 | ldImm | addImm | ldReg | orReg | andReg | xorReg | addReg | subReg | shr | subn | shl | ldI
    | rnd | drw | ldVxDt | ldDtVx | ldStVx | addIVx | ldF => cases h; rfl

/-- R203: the three stores of `Fx33` reach the bytes `I`, `I + 1` and `I + 2` alone. -/
theorem sameMemoryOutside_execLdB {s t : State} (x : Nib) (h : exec (.ldB x) s = .next t) :
    SameMemoryOutside 3 s t := by
  cases h
  intro a ha
  simp [memRead_memWrite, ha]

/-- Every instruction changes at most the bytes that R69 lists for it. -/
theorem sameMemoryOutside_of_exec {i : Instr} {s t : State} (h : exec i s = .next t) :
    SameMemoryOutside i.storedBytes s t := by
  by_cases hi : i.storedBytes = 0
  · exact sameMemoryOutside_of_mem_eq (mem_of_exec h hi) _
  cases i with
  | ldB x => exact sameMemoryOutside_execLdB x h
  | stRegs x =>
    cases h
    exact memRead_storeBlock_outside _ s
  | _ => exact absurd rfl hi

/-- Settles O44: the bytes outside the block are kept, and a block of no bytes leaves none inside. -/
theorem memoryOutsideTheStoredBytesIsUnchanged : Obligations.MemoryOutsideTheStoredBytesIsUnchanged := by
  refine ⟨fun i s t h => sameMemoryOutside_of_exec h, fun i s t h hi a => ?_⟩
  exact sameMemoryOutside_of_exec h a (by simp [hi])

/-! ## The font -/

/-- Every byte of the font region reads in `t` as it reads in `s` (R63). -/
def SameFont (s t : State) : Prop := ∀ a, inFont a = true → memGet t.mem a = memGet s.mem a

theorem sameFont_of_mem_eq {s t : State} (h : t.mem = s.mem) : SameFont s t := fun a _ => congrArg (memGet · a) h

/-- An instruction reaches memory by stores alone, and no store reaches the font. -/
theorem Effect.sameFont {i : Instr} {s t : State} (h : Effect s i t) : SameFont s t := by
  cases h with
  | store m hst => exact hst.font
  | skip hi c => exact sameFont_of_mem_eq (by rw [skipIf_eq])
  | registers | random | jump | jumpV0 | call | callOverflow | ret | retUnderflow | clear | draw | index | delayTimer
    | soundTimer | wait => exact sameFont_of_mem_eq rfl

theorem sameFont_load (bytes : List Byte) (s : State) : SameFont s (load bytes s) := by
  unfold load
  split
  · exact sameFont_of_mem_eq rfl
  · next hlen => exact (storesOnly_placeBytes bytes s (Nat.le_of_not_lt hlen)).font

theorem sameFont_completeOrKeepWaiting (s : State) : SameFont s (completeOrKeepWaiting s) := by
  obtain ⟨k, -, hdone⟩ | ⟨-, hkept⟩ := completeOrKeepWaiting_cases s
  · exact sameFont_of_mem_eq (by rw [hdone]; rfl)
  · exact sameFont_of_mem_eq (by rw [hkept])

theorem sameFont_of_step {s t : State} (h : step s = .next t) : SameFont s t := by
  obtain ⟨-, hstep⟩ | ⟨-, -, hstep⟩ | ⟨-, -, i, -, hstep⟩ | ⟨-, -, e, -, hstep⟩ := step_cases s
  · cases hstep.symm.trans h
    exact sameFont_of_mem_eq rfl
  · cases hstep.symm.trans h
    exact sameFont_completeOrKeepWaiting s
  · exact (effect_of_exec (hstep.symm.trans h)).sameFont
  · cases hstep.symm.trans h
    exact sameFont_of_mem_eq rfl

/-- A step event is a step with the byte lined up, whose rest of the line is put back. -/
theorem stepWith_eq_next {rand : Byte} {s t : State} (h : stepWith rand s = .next t) :
    ∃ u, step { s with rands := rand :: s.rands } = .next u ∧ t = { u with rands := s.rands } := by
  unfold stepWith at h
  split at h
  · next u hu => exact ⟨u, hu, by cases h; rfl⟩
  all_goals cases h

theorem sameFont_of_stepWith {rand : Byte} {s t : State} (h : stepWith rand s = .next t) : SameFont s t := by
  obtain ⟨u, hu, rfl⟩ := stepWith_eq_next h
  exact fun a ha => sameFont_of_step hu a ha

theorem sameFont_of_applyEvent {e : Event} {s t : State} (hreset : e ≠ .reset) (h : applyEvent e s = .next t) :
    SameFont s t := by
  cases e with
  | reset => exact absurd rfl hreset
  | load bytes =>
    cases h
    exact sameFont_load bytes s
  | setKeys | tick =>
    cases h
    exact sameFont_of_mem_eq rfl
  | step rand => exact sameFont_of_stepWith h

/-- Settles O50, event by event: stores spare the font, and a load begins above it. -/
theorem noEventButResetChangesTheFont : Obligations.NoEventButResetChangesTheFont := by
  intro e s t hreset h a hlow hhigh
  exact sameFont_of_applyEvent hreset h a (by simp [inFont, hlow, hhigh])

end Sys2Proof.Machine
end

section
/-! PROOF. The encoding family: the decoder's fields as masked slices of the word (30_encoding.md R91). -/

namespace Sys2Proof

/-! ## Fields -/

/-- A 4-bit mask is the nibble 0xF shifted up to the field, so the shift down leaves the word's slice under 0xF. -/
theorem val_nibbleAt_eq_masked (w : Word) (lo : Nat) (hlo : lo ≤ 12) :
    (nibbleAt lo w).val = ((w &&& 0xF#16 <<< lo) >>> lo).toNat := by
  have hmask : 0xF#16 <<< lo >>> lo = 0xF#16 := by interval_cases lo <;> rfl
  rw [BitVec.ushiftRight_and_distrib, hmask, BitVec.toNat_and, BitVec.toNat_ushiftRight, Nat.shiftRight_eq_div_pow]
  exact (Nat.and_two_pow_sub_one_eq_mod _ 4).symm

theorem toNat_fieldNN (w : Word) : (fieldNN w).toNat = w.toNat % 256 := BitVec.toNat_setWidth ..

theorem toNat_fieldNNN (w : Word) : (fieldNNN w).toNat = w.toNat % 4096 := BitVec.toNat_setWidth ..

/-- A mask of the low 8 bits is a remainder, and so is a truncation to 8 bits. -/
theorem toNat_fieldNN_eq_masked (w : Word) : (fieldNN w).toNat = (w &&& 0x00FF#16).toNat := by
  rw [toNat_fieldNN, BitVec.toNat_and]
  exact (Nat.and_two_pow_sub_one_eq_mod _ 8).symm

/-- The 12-bit field is the masking of an address (20_memory.md R62). -/
theorem toNat_fieldNNN_eq_masked (w : Word) : (fieldNNN w).toNat = (w &&& 0x0FFF#16).toNat :=
  (toNat_fieldNNN w).trans (Machine.mask12_eq w).symm

/-- The word as a number in its four nibbles. -/
theorem toNat_eq_nibbles (w : Word) :
    w.toNat = (fieldOp w).val * 4096 + (fieldX w).val * 256 + (fieldY w).val * 16 + (fieldN w).val := by
  rw [← Laws.toNat_wordXYN, wordXYN_fields]

theorem toNat_fieldNN_eq_nibbles (w : Word) : (fieldNN w).toNat = 16 * (fieldY w).val + (fieldN w).val := by
  rw [toNat_fieldNN, toNat_eq_nibbles]
  omega

theorem toNat_fieldNNN_eq_nibbles (w : Word) :
    (fieldNNN w).toNat = 256 * (fieldX w).val + 16 * (fieldY w).val + (fieldN w).val := by
  rw [toNat_fieldNNN, toNat_eq_nibbles]
  omega

/-- Settles O6: the four nibbles are one masked slice at four positions, and the wider fields are remainders. -/
theorem fieldsAreTheMaskedSlices : Obligations.FieldsAreTheMaskedSlices := by
  refine ⟨fun w => ⟨?op, ?x, ?y, ?n, toNat_fieldNN_eq_masked w, toNat_fieldNNN_eq_masked w,
    toNat_fieldNN_eq_nibbles w, toNat_fieldNNN_eq_nibbles w⟩, rfl, rfl, rfl⟩
  case op => exact val_nibbleAt_eq_masked w 12 (by decide)
  case x => exact val_nibbleAt_eq_masked w 8 (by decide)
  case y => exact val_nibbleAt_eq_masked w 4 (by decide)
  case n => exact val_nibbleAt_eq_masked w 0 (by decide)

end Sys2Proof
end

section
/-! PROOF. The step cycle: one equation per branch of a step (40_step_cycle.md R125), the condition that every step
keeps (10_state.md R30; 40_step_cycle.md R127), and runs of events (R121, R124, R133). -/

namespace Sys2Proof.Machine

/-! ## A step, an equation per branch -/

section
variable {s : State}

theorem step_of_halted (hhalt : s.halted = true) : step s = .next s := by
  simp [step, hhalt]

theorem step_of_waiting (hrun : s.halted = false) (hwait : s.awaitingKey = true) :
    step s = .next (completeOrKeepWaiting s) := by
  simp [step, hrun, hwait]

theorem step_of_decode {i : Instr} (hrun : s.halted = false) (hfree : s.awaitingKey = false)
    (hdec : decodeWord (fetchWord s) = .ok i) : step s = exec i (fetchIncrement s) := by
  simp [step, hrun, hfree, hdec]

theorem step_of_reject {e : DecodeReject} (hrun : s.halted = false) (hfree : s.awaitingKey = false)
    (hdec : decodeWord (fetchWord s) = .error e) :
    step s = .next (raise .illegalInstruction (fetchWord s) s.pc (fetchIncrement s)) := by
  simp [step, hrun, hfree, hdec, illegalInstruction]
end

/-- Settles O8, branch by branch. -/
theorem stepRunsTheDecodedInstruction : Obligations.StepRunsTheDecodedInstruction := fun _ =>
  ⟨step_of_halted, step_of_waiting, fun hrun hfree =>
    ⟨fun _ => step_of_decode hrun hfree, fun _ => step_of_reject hrun hfree⟩⟩

/-! ## The waiting condition -/

/-- A waiting core is not halted and stands at the suspended `Fx0A` (R30): what `StepInv` says beyond `EventInv`. -/
def WaitsAtItsFetch (s : State) : Prop :=
  s.awaitingKey = true → s.halted = false ∧ decodeWord (fetchWord s) = .ok (.ldVxK s.keyDest)

theorem stepInv_iff (s : State) : StepInv s ↔ EventInv s ∧ WaitsAtItsFetch s :=
  ⟨fun h => ⟨h.base, h.waiting⟩, fun ⟨hbase, hwaiting⟩ => ⟨hbase, hwaiting⟩⟩

theorem waitsAtItsFetch_of_not_waiting {s : State} (h : s.awaitingKey = false) : WaitsAtItsFetch s :=
  fun hwait => absurd (h.symm.trans hwait) Bool.false_ne_true

/-- An instruction leaves `awaiting_key` as it was, or it is an `Fx0A` that undoes the fetch increment and waits
(45_keypad_timers.md R237). -/
theorem Effect.awaitingKey_or_wait {i : Instr} {s t : State} (h : Effect s i t) :
    t.awaitingKey = s.awaitingKey ∨
      ∃ x, i = .ldVxK x ∧ t = ((s.setPc (instrAddr s)).setAwaiting true).setKeyDest x := by
  cases h with
  | wait x => exact .inr ⟨x, rfl, rfl⟩
  | skip hi c => exact .inl (by rw [skipIf_eq])
  | registers | random | jump | jumpV0 | call | callOverflow | ret | retUnderflow | clear | draw | index | store
    | delayTimer | soundTimer => exact .inl rfl

@[simp] theorem instrAddr_fetchIncrement (s : State) : instrAddr (fetchIncrement s) = s.pc :=
  BitVec.add_sub_cancel ..

/-- The word fetched depends on memory and `pc` alone. -/
theorem fetchWord_congr {s t : State} (hmem : t.mem = s.mem) (hpc : t.pc = s.pc) : fetchWord t = fetchWord s := by
  simp only [fetchWord, memRead, hmem, hpc]

/-- The instruction just fetched either leaves the core not waiting, or it is the `Fx0A` whose address `pc` has
again. -/
theorem Effect.waitsAtItsFetch {i : Instr} {s t : State} (h : Effect (fetchIncrement s) i t)
    (hrun : s.halted = false) (hfree : s.awaitingKey = false) (hdec : decodeWord (fetchWord s) = .ok i) :
    WaitsAtItsFetch t := by
  rcases h.awaitingKey_or_wait with hkept | ⟨x, rfl, rfl⟩
  · exact waitsAtItsFetch_of_not_waiting (hkept.trans hfree)
  · intro _
    have hword : fetchWord ((fetchIncrement s).setPc (instrAddr (fetchIncrement s))) = fetchWord s :=
      fetchWord_congr rfl (instrAddr_fetchIncrement s)
    exact ⟨hrun, (congrArg decodeWord hword).trans hdec⟩

/-- A wait ends with its latch cleared, or it goes on in the same state. -/
theorem waitsAtItsFetch_completeOrKeepWaiting {s : State} (h : WaitsAtItsFetch s) :
    WaitsAtItsFetch (completeOrKeepWaiting s) := by
  obtain ⟨k, -, hdone⟩ | ⟨-, hkept⟩ := completeOrKeepWaiting_cases s
  · rw [hdone]
    exact waitsAtItsFetch_of_not_waiting rfl
  · rwa [hkept]

theorem WaitsAtItsFetch.step {s t : State} (h : WaitsAtItsFetch s) (hst : step s = .next t) : WaitsAtItsFetch t := by
  obtain ⟨-, hstep⟩ | ⟨-, -, hstep⟩ | ⟨hrun, hfree, i, hdec, hstep⟩ | ⟨-, hfree, e, -, hstep⟩ := step_cases s
  · cases hstep.symm.trans hst
    exact h
  · cases hstep.symm.trans hst
    exact waitsAtItsFetch_completeOrKeepWaiting h
  · exact (effect_of_exec (hstep.symm.trans hst)).waitsAtItsFetch hrun hfree hdec
  · cases hstep.symm.trans hst
    exact waitsAtItsFetch_of_not_waiting hfree

/-- Settles O47: a step keeps the event invariant and the waiting condition, each for its own reason. -/
theorem stepKeepsTheInvariant : Obligations.StepKeepsTheInvariant := by
  intro s t hinv hst
  rw [stepInv_iff] at hinv ⊢
  obtain ⟨hbase, hwaits⟩ := hinv
  obtain ⟨u, hu, hbase'⟩ := hbase.step
  cases hst.symm.trans hu
  exact ⟨hbase', hwaits.step hst⟩

/-! ## Runs of events -/

/-- A schedule goes on from the state its first event leads to. -/
theorem runEvents_cons {e : Event} {s t : State} (h : applyEvent e s = .next t) (es : List Event) :
    runEvents (e :: es) s = runEvents es t := by
  rw [runEvents, h]

/-- What every event keeps, every schedule keeps. -/
theorem EventInv.runEvents {s : State} (h : EventInv s) (es : List Event) :
    ∃ t, runEvents es s = .next t ∧ EventInv t := by
  induction es generalizing s with
  | nil => exact ⟨s, rfl, h⟩
  | cons e es ih =>
    obtain ⟨u, hu, hinv⟩ := everyEventKeepsTheInvariant e s h
    rw [runEvents_cons hu]
    exact ih hinv

/-- Settles O49: the reset state meets the invariant, and every schedule keeps it. -/
theorem reachableStatesMeetTheInvariant : Obligations.ReachableStatesMeetTheInvariant :=
  eventInv_reset.runEvents

/-- Settles O54: the new keypad is read off the bits of `k`, and `setK` is the whole update. -/
theorem setKeysReplacesTheKeypad : Obligations.SetKeysReplacesTheKeypad := by
  intro k s
  exact ⟨setKeys k s, rfl, fun j => (setKeys_key k s j).trans (BitVec.getLsbD_eq_getElem j.isLt), rfl⟩

/-- Settles O57: the three strobes are the schedule `set_keys`, `step`, `tick`, run event by event. -/
theorem strobesTogetherRunInTheListedOrder : Obligations.StrobesTogetherRunInTheListedOrder := by
  refine ⟨fun k rand s t hstep => ?_, fun s => rfl⟩
  calc cycle (some k) (some rand) true s
      = runEvents [.setKeys k, .step rand, .tick] s := rfl
    _ = runEvents [.step rand, .tick] (setKeys k s) := runEvents_cons rfl _
    _ = runEvents [.tick] t := runEvents_cons (e := .step rand) hstep _
    _ = .next (tick t) := runEvents_cons rfl _

end Sys2Proof.Machine
end

section
/-! PROOF. The control flow family: the words of the jump and the skips (30_encoding.md R94), and what they do to `pc`
(41_control_flow.md R151, R155 to R158). -/

namespace Sys2Proof

/-- The mask 0xF000 leaves `op` in its place. -/
theorem and_F000_eq_fieldOp (w : Word) : w &&& 0xF000#16 = BitVec.ofNat 16 ((fieldOp w).val * 4096) := by
  rw [← Laws.wordXI_F000, wordXI_fields]

/-- A match under the mask 0xF000 fixes `op`. -/
theorem fieldOp_of_and_F000 {w : Word} (op : Nib) (h : w &&& 0xF000#16 = BitVec.ofNat 16 (op.val * 4096)) :
    fieldOp w = op := by
  have hnat := congrArg BitVec.toNat ((and_F000_eq_fieldOp w).symm.trans h)
  simp only [BitVec.toNat_ofNat] at hnat
  apply Fin.ext
  omega

end Sys2Proof

namespace Sys2Proof.Machine

/-- Settles O14: `op = 1` is the jump's row, and the jump is one update of `pc`. -/
theorem jumpSetsPc : Obligations.JumpSetsPc := by
  refine ⟨fun w h => ?_, fun nnn s => rfl⟩
  simp [decodeWord, fieldOp_of_and_F000 1 h]

theorem aluEq_iff (a b : Byte) : aluEq a b = true ↔ a = b := decide_eq_true_iff

theorem not_aluEq_iff (a b : Byte) : (!aluEq a b) = true ↔ a ≠ b := by
  simp [aluEq]

/-- A skip whose test decides `p` adds 2 to `pc` exactly when `p` holds, and changes nothing else. -/
theorem skipIf_of_iff {c : Bool} {p : Prop} [Decidable p] (h : c = true ↔ p) (s : State) :
    skipIf c s = { s with pc := if p then s.pc + 2 else s.pc } := by
  simp only [skipIf_eq, h]

/-- Settles O19: `op` alone selects each of the four, and each is one skip on the comparison or on its negation. -/
theorem skipsCompareForEquality : Obligations.SkipsCompareForEquality := by
  refine ⟨fun w => ⟨fun h => ?seImm, fun h => ?sneImm, fun h => ?seReg, fun h => ?sneReg⟩, fun x y ign nn s => ?_⟩
  case seImm => simp [decodeWord, fieldOp_of_and_F000 3 h]
  case sneImm => simp [decodeWord, fieldOp_of_and_F000 4 h]
  case seReg => simp [decodeWord, fieldOp_of_and_F000 5 h]
  case sneReg => simp [decodeWord, fieldOp_of_and_F000 9 h]
  exact ⟨congrArg _ (skipIf_of_iff (aluEq_iff ..) s), congrArg _ (skipIf_of_iff (not_aluEq_iff ..) s),
    congrArg _ (skipIf_of_iff (aluEq_iff ..) s), congrArg _ (skipIf_of_iff (not_aluEq_iff ..) s)⟩

end Sys2Proof.Machine
end

section
/-! PROOF. The ALU family: the load of an immediate and the random byte (42_alu.md R172, R183, R184; 40_step_cycle.md
R132). -/

namespace Sys2Proof.Machine

/-! ## The load of an immediate -/

theorem exec_ldImm (x : Nib) (nn : Byte) (s : State) : exec (.ldImm x nn) s = .next (s.setV x nn) := rfl

/-- Settles O21: `op = 6` is the load's row, and the load is one register write, whose reads are `readV_setV`. -/
theorem loadImmediateWritesTheRegister : Obligations.LoadImmediateWritesTheRegister := by
  refine ⟨fun w h => ?_, fun x nn s => ⟨_, exec_ldImm x nn s, fun r => s.readV_setV x r nn, rfl⟩⟩
  simp [decodeWord, fieldOp_of_and_F000 6 h]

/-! ## The random byte -/

theorem exec_rnd (x : Nib) (nn : Byte) (s : State) :
    exec (.rnd x nn) s = .next ((afterDraw s).setV x (drawByte s &&& nn)) := rfl

/-- A byte under a mask has no bit outside the mask. -/
theorem and_and_not_self (b nn : Byte) : b &&& nn &&& ~~~nn = 0 := by
  rw [BitVec.and_assoc, BitVec.and_not_self]
  exact BitVec.and_zero

/-- Where the step with the byte lined up answers a state, the step event answers it with the line put back. -/
theorem stepWith_of_step {rand : Byte} {s t : State} (h : step { s with rands := rand :: s.rands } = .next t) :
    stepWith rand s = .next { t with rands := s.rands } := by
  rw [stepWith, h]

/-- The step event of a running core that fetches `Cxnn`: the lined-up byte is the one drawn, whatever it is. -/
theorem stepWith_of_rnd {s : State} {x : Nib} {nn : Byte} (rand : Byte) (hrun : s.halted = false)
    (hfree : s.awaitingKey = false) (hdec : decodeWord (fetchWord s) = .ok (.rnd x nn)) :
    stepWith rand s = .next (((fetchIncrement s).setRand s.rands (s.draws + 1)).setV x (rand &&& nn)) := by
  have hstep := step_of_decode (s := { s with rands := rand :: s.rands }) hrun hfree hdec
  rw [exec_rnd] at hstep
  exact stepWith_of_step hstep

/-- Settles O27: `exec` writes the drawn byte under the mask, and the step event does so with the byte lined up; the
registers of both answers are read by `readV_setV`. -/
theorem randomByteIsMasked : Obligations.RandomByteIsMasked := by
  refine ⟨fun w h => ?decode, fun x nn s => ?execute, fun x nn rand s hrun hfree hdec => ?event⟩
  case decode => simp [decodeWord, fieldOp_of_and_F000 12 h]
  case execute =>
    refine ⟨_, exec_rnd x nn s, fun r => State.readV_setV _ x r _, ?_, rfl⟩
    rw [State.readV_setV_same, and_and_not_self]
  case event => exact ⟨_, stepWith_of_rnd rand hrun hfree hdec, fun r => State.readV_setV _ x r _, rfl⟩

end Sys2Proof.Machine
end

section
/-! PROOF. The index and memory family: the load of `I` (43_index_memory.md R200). -/

namespace Sys2Proof.Machine

theorem exec_ldI (nnn : Addr12) (s : State) : exec (.ldI nnn) s = .next (s.setI (zextAddr nnn)) := rfl

/-- Settles O29: `op = 0xA` is the load's row, and the load is one update of `I`, which `exec_ldI` gives. -/
theorem setIndexLoadsTheAddress : Obligations.SetIndexLoadsTheAddress := by
  refine ⟨fun w h => ?_, exec_ldI⟩
  simp [decodeWord, fieldOp_of_and_F000 10 h]

end Sys2Proof.Machine
end

section
/-! PROOF. The display family: clearing the display, and what a drawn sprite does to each pixel and to the flag
(44_display.md R220 to R223). -/

namespace Sys2Proof

/-- A match under the mask 0xF0FF fixes `op` and `nn`: the word is the format `XI` word of them and its own `x`. -/
theorem eq_wordXI_of_and_F0FF {w : Word} (op : Nib) (nn : Byte)
    (h : w &&& 0xF0FF#16 = BitVec.ofNat 16 (op.val * 4096 + nn.toNat)) : w = wordXI op (fieldX w) nn := by
  have hnat := congrArg BitVec.toNat h
  rw [toNat_and_F0FF, BitVec.toNat_ofNat] at hnat
  apply BitVec.eq_of_toNat_eq
  rw [Laws.toNat_wordXI]
  simp only [fieldX, nibbleAt, Fin.val_ofNat]
  omega

/-- A row byte is nonzero exactly when one of the sprite's columns 0 to 7 (R221) is a 1 bit of it. -/
theorem ne_zero_iff_exists_column (b : Byte) : b ≠ 0 ↔ ∃ c < 8, b.getLsbD (7 - c) = true := by
  constructor
  · intro hne
    by_contra hnone
    refine hne (BitVec.eq_of_getLsbD_eq fun i hi => ?_)
    have hbit : ¬ b.getLsbD (7 - (7 - i)) = true := fun hb => hnone ⟨7 - i, by omega, hb⟩
    rw [Nat.sub_sub_self (by omega)] at hbit
    simpa using hbit
  · rintro ⟨c, -, hb⟩ rfl
    simp at hb

end Sys2Proof

namespace Sys2Proof.Machine

/-! ## Clearing -/

theorem exec_cls (ign : Nib) (s : State) : exec (.cls ign) s = .next (s.setDisp clearDisplay) := rfl

/-- Settles O35: `op = 0` with `nn = 0xE0` is the clear's row, and the clear is one update of the display, to the one
that `pixel_clearDisplay` reads. -/
theorem clearDisplayTurnsEveryPixelOff : Obligations.ClearDisplayTurnsEveryPixelOff := by
  refine ⟨fun w h => ?_, fun ign s => ⟨_, exec_cls ign s, pixel_clearDisplay, rfl⟩⟩
  calc decodeWord w
      = decodeWord (encode (.cls (fieldX w))) := congrArg decodeWord (eq_wordXI_of_and_F0FF 0 0xE0 h)
    _ = .ok (.cls (fieldX w)) := decodeWord_encode _

/-! ## The pixels a sprite covers -/

/-- The display and the collision that a draw of the `n` rows at `I` computes (R222). -/
def drawSprite (x y n : Nib) (s : State) : Canvas :=
  drawRows (fun r => memRead s (blockAddr s.I r)) (s.readV x) (s.readV y) n.val (s.disp, false)

/-- The state a draw answers. -/
def drawn (x y n : Nib) (s : State) : State :=
  (s.setDisp (drawSprite x y n s).1).setVF (flagByte (drawSprite x y n s).2)

theorem exec_drw (x y n : Nib) (s : State) : exec (.drw x y n) s = .next (drawn x y n s) := rfl

section
variable (x y n : Nib) (s : State)

/-- The rows and columns that the model's draw hits are those R221 and R222 name. -/
theorem spriteHits_iff_spriteCovers (px : Fin 64) (py : Fin 32) :
    spriteHits (fun r => memRead s (blockAddr s.I r)) (s.readV x) (s.readV y) n.val px py = true ↔
      SpriteCovers s x y n px py := by
  rw [spriteHits_iff]
  simp only [SpriteCovers, spriteBit, blockAddr, wrapX, wrapY, Fin.ext_iff, Fin.val_ofNat]

/-- Some pixel is covered exactly when some row has a 1 bit. -/
theorem exists_spriteCovers_iff :
    (∃ px py, SpriteCovers s x y n px py) ↔ ∃ r < n.val, memRead s (s.I + BitVec.ofNat 16 r) ≠ 0 := by
  simp only [ne_zero_iff_exists_column]
  constructor
  · rintro ⟨px, py, r, hr, c, hc, hbit, -, -⟩
    exact ⟨r, hr, c, hc, hbit⟩
  · rintro ⟨r, hr, c, hc, hbit⟩
    exact ⟨wrapX (s.readV x) c, wrapY (s.readV y) r, r, hr, c, hc, hbit, rfl, rfl⟩

variable {x y n s} in
/-- The covered pixels are a matter of the index, the memory and the two coordinates. -/
theorem spriteCovers_congr {t : State} (hI : t.I = s.I) (hmem : SameMemory s t) (hx : t.readV x = s.readV x)
    (hy : t.readV y = s.readV y) (px : Fin 64) (py : Fin 32) :
    SpriteCovers t x y n px py ↔ SpriteCovers s x y n px py := by
  simp only [SpriteCovers, hI, hx, hy, hmem _]

/-! ## What a draw does -/

theorem pixel_drawn (px : Fin 64) (py : Fin 32) : pixel (drawn x y n s).disp px py =
    (pixel s.disp px py ^^
      spriteHits (fun r => memRead s (blockAddr s.I r)) (s.readV x) (s.readV y) n.val px py) :=
  pixel_drawRows _ _ _ _ (by omega) _ px py

variable {x y n s} in
theorem pixel_drawn_of_covers {px : Fin 64} {py : Fin 32} (h : SpriteCovers s x y n px py) :
    pixel (drawn x y n s).disp px py = !pixel s.disp px py := by
  rw [pixel_drawn, (spriteHits_iff_spriteCovers ..).2 h, Bool.xor_true]

variable {x y n s} in
theorem pixel_drawn_of_not_covers {px : Fin 64} {py : Fin 32} (h : ¬ SpriteCovers s x y n px py) :
    pixel (drawn x y n s).disp px py = pixel s.disp px py := by
  rw [pixel_drawn, Bool.eq_false_iff.2 fun hit => h ((spriteHits_iff_spriteCovers ..).1 hit), Bool.xor_false]

/-- A draw collides exactly when a covered pixel was on before it. -/
theorem drawSprite_collides_iff : (drawSprite x y n s).2 = true ↔
    ∃ px py, SpriteCovers s x y n px py ∧ pixel s.disp px py = true := by
  rw [drawSprite, collision_drawRows _ _ _ _ (by omega)]
  simp only [← spriteHits_iff_spriteCovers, spriteHits_iff, Bool.false_or, List.any_eq_true, List.mem_range,
    Bool.and_eq_true]
  constructor
  · rintro ⟨r, hr, c, hc, hbit, hon⟩
    exact ⟨_, _, ⟨r, hr, c, hc, hbit, rfl, rfl⟩, hon⟩
  · rintro ⟨px, py, ⟨r, hr, c, hc, hbit, rfl, rfl⟩, hon⟩
    exact ⟨r, hr, c, hc, hbit, hon⟩

theorem readV_drawn (r : Nib) :
    (drawn x y n s).readV r = if r = 15 then flagByte (drawSprite x y n s).2 else s.readV r :=
  State.readV_setV _ 15 r _

theorem flagByte_eq_one_iff (f : Bool) : flagByte f = 1 ↔ f = true := by cases f <;> decide

theorem flagByte_eq_zero_iff_ne_one (f : Bool) : flagByte f = 0 ↔ ¬ flagByte f = 1 := by cases f <;> decide

/-- The flag after a draw is 1 exactly when a covered pixel was on before it. -/
theorem drawn_flag_eq_one_iff : (drawn x y n s).readV 15 = 1 ↔
    ∃ px py, SpriteCovers s x y n px py ∧ pixel s.disp px py = true := by
  rw [readV_drawn, if_pos rfl, flagByte_eq_one_iff, drawSprite_collides_iff]

/-- The flag after a draw is 0 or 1. -/
theorem drawn_flag_eq_zero_iff_ne_one : (drawn x y n s).readV 15 = 0 ↔ ¬ (drawn x y n s).readV 15 = 1 := by
  rw [readV_drawn, if_pos rfl, flagByte_eq_zero_iff_ne_one]

/-- The flag after a draw is 0 exactly when no covered pixel was on before it. -/
theorem drawn_flag_eq_zero_iff : (drawn x y n s).readV 15 = 0 ↔
    ∀ px py, SpriteCovers s x y n px py → pixel s.disp px py = false := by
  rw [drawn_flag_eq_zero_iff_ne_one, drawn_flag_eq_one_iff]
  simp only [not_exists, not_and, Bool.not_eq_true]

end

/-- Settles O36: `op = 0xD` is the draw's row, and the draw is `drawn`, whose pixels and flag are read off the covered
pixels. -/
theorem drawXorsWrapsAndFlagsCollision : Obligations.DrawXorsWrapsAndFlagsCollision := by
  refine ⟨fun w h => ?decode, fun x y n s => ⟨drawn x y n s, exec_drw x y n s,
    fun px py => ⟨pixel_drawn_of_covers, pixel_drawn_of_not_covers⟩, (drawn_flag_eq_one_iff x y n s).2,
    (drawn_flag_eq_zero_iff x y n s).2, fun r hr => ?others, rfl⟩⟩
  case decode => simp [decodeWord, fieldOp_of_and_F000 13 h]
  case others => rw [readV_drawn, if_neg hr]

/-! ## Drawing twice -/

section
variable {x y n : Nib} {s t : State}

/-- Two draws over the same pixels undo each other (R223). -/
theorem drawn_drawn_disp (hdisp : t.disp = (drawn x y n s).disp)
    (hcov : ∀ px py, SpriteCovers t x y n px py ↔ SpriteCovers s x y n px py) :
    (drawn x y n t).disp = s.disp := by
  refine display_ext _ _ fun px py => ?_
  by_cases h : SpriteCovers s x y n px py
  · rw [pixel_drawn_of_covers ((hcov px py).2 h), hdisp, pixel_drawn_of_covers h, Bool.not_not]
  · rw [pixel_drawn_of_not_covers (mt (hcov px py).1 h), hdisp, pixel_drawn_of_not_covers h]

/-- After a draw over pixels that were off, a second one over the same pixels finds each of them on, so it collides
exactly when there is one. -/
theorem second_draw_collides_iff (hdisp : t.disp = (drawn x y n s).disp)
    (hcov : ∀ px py, SpriteCovers t x y n px py ↔ SpriteCovers s x y n px py)
    (hoff : ∀ px py, SpriteCovers s x y n px py → pixel s.disp px py = false) :
    (∃ px py, SpriteCovers t x y n px py ∧ pixel t.disp px py = true) ↔
      ∃ r < n.val, memRead s (s.I + BitVec.ofNat 16 r) ≠ 0 := by
  rw [← exists_spriteCovers_iff x y n s]
  refine exists_congr fun px => exists_congr fun py => ?_
  rw [hcov px py]
  refine and_iff_left_of_imp fun h => ?_
  rw [hdisp, pixel_drawn_of_covers h, hoff px py h, Bool.not_false]

end

/-- Settles O37: the second draw covers the same pixels, so it flips them back, and those the first draw turned on are
its collision. -/
theorem drawingTwiceRestoresTheDisplay : Obligations.DrawingTwiceRestoresTheDisplay := by
  refine fun x y n s => ⟨drawn x y n s, exec_drw x y n s, fun t hdisp hI hmem hx hy => ?_⟩
  have hcov := spriteCovers_congr (n := n) hI hmem hx hy
  refine ⟨drawn x y n t, exec_drw x y n t, drawn_drawn_disp hdisp hcov, fun hoff => ?_⟩
  have hone := (drawn_flag_eq_one_iff x y n t).trans (second_draw_collides_iff hdisp hcov hoff)
  refine ⟨(drawn_flag_eq_zero_iff x y n s).2 hoff, hone, ?_⟩
  rw [drawn_flag_eq_zero_iff_ne_one, hone]
  simp only [not_exists, not_and, not_not]

end Sys2Proof.Machine
end

section
/-! PROOF. The keypad and timer family: the key skips and the wait (45_keypad_timers.md R235 to R238), the timer
instructions (R239 to R241) and the tick (R242, R243). -/

namespace Sys2Proof

/-- A match under the mask 0xF0FF decodes to the instruction whose encoding is the format `XI` word of the matched `op`
and `nn` and the word's own `x`. -/
theorem decodeWord_of_and_F0FF {w : Word} (op : Nib) (nn : Byte) {i : Instr}
    (h : w &&& 0xF0FF#16 = BitVec.ofNat 16 (op.val * 4096 + nn.toNat)) (hi : encode i = wordXI op (fieldX w) nn) :
    decodeWord w = .ok i := by
  rw [eq_wordXI_of_and_F0FF op nn h, ← hi, decodeWord_encode]

end Sys2Proof

namespace Sys2Proof.Machine

/-! ## The key skips -/

theorem exec_skp (x : Nib) (s : State) : exec (.skp x) s = .next (skipIf (s.key (lowNibble (s.readV x))) s) := rfl

theorem exec_sknp (x : Nib) (s : State) : exec (.sknp x) s = .next (skipIf (!s.key (lowNibble (s.readV x))) s) := rfl

/-- R238: the key a register value names is the value's low nibble, a remainder. -/
theorem eq_lowNibble_of_val_eq_and {k : Nib} {b : Byte} (h : k.val = (b &&& 0x0F#8).toNat) : k = lowNibble b := by
  have hmask : (b &&& 0x0F#8).toNat = b.toNat % 16 := by
    rw [BitVec.toNat_and]
    exact Nat.and_two_pow_sub_one_eq_mod _ 4
  exact Fin.ext (h.trans (hmask.trans (lowNibble_val b).symm))

/-- Settles O20: each word has its own row under the mask 0xF0FF, and each instruction is one skip on the flag of the
named key or on its negation. -/
theorem keySkipsTestTheNamedKey : Obligations.KeySkipsTestTheNamedKey := by
  refine ⟨fun w => ⟨fun h => ?skp, fun h => ?sknp⟩, fun x k s hk => ?execute⟩
  case skp => exact decodeWord_of_and_F0FF 0xE 0x9E h rfl
  case sknp => exact decodeWord_of_and_F0FF 0xE 0xA1 h rfl
  case execute =>
    have hreleased : (!s.key k) = true ↔ s.key k = false := iff_of_eq (Bool.not_eq_true' _)
    rw [exec_skp, exec_sknp, ← eq_lowNibble_of_val_eq_and hk]
    exact ⟨congrArg _ (skipIf_of_iff Iff.rfl s), congrArg _ (skipIf_of_iff hreleased s)⟩

/-! ## The wait -/

/-- Settles O38: `lowestKey` finds the least pressed key, whose number is one register write, or it finds none, and the
wait begins at the instruction's own address. -/
theorem waitForKeyTakesTheLeastPressedKey : Obligations.WaitForKeyTakesTheLeastPressedKey := by
  refine ⟨fun w h => decodeWord_of_and_F0FF 0xF 0x0A h rfl, fun x s => ⟨fun k hk hleast => ?pressed,
    fun hnone => ?none⟩⟩
  case pressed =>
    have hlow : lowestKey s = some k := (lowestKey_eq_some s k).2 ⟨hk, hleast⟩
    exact ⟨_, execLdVxK_pressed s x k hlow, fun r => s.readV_setV x r _, rfl⟩
  case none => exact execLdVxK_none s x ((lowestKey_eq_none s).2 hnone)

/-! ## The timer instructions -/

theorem exec_ldVxDt (x : Nib) (s : State) : exec (.ldVxDt x) s = .next (s.setV x s.DT) := rfl

theorem exec_ldDtVx (x : Nib) (s : State) : exec (.ldDtVx x) s = .next (s.setDT (s.readV x)) := rfl

theorem exec_ldStVx (x : Nib) (s : State) : exec (.ldStVx x) s = .next (s.setST (s.readV x)) := rfl

theorem soundActive_iff (s : State) : soundActive s = true ↔ s.ST ≠ 0 := bne_iff_ne

/-- Settles O39: each word has its own row under the mask 0xF0FF, and each instruction is one update, of `V[x]`, `DT` or
`ST`; the sound output is read off the new `ST`. -/
theorem timerInstructionsMoveOneByte : Obligations.TimerInstructionsMoveOneByte := by
  refine ⟨fun w => ⟨fun h => ?ldVxDt, fun h => ?ldDtVx, fun h => ?ldStVx⟩,
    fun x s => ⟨?read, exec_ldDtVx x s, ?sound⟩⟩
  case ldVxDt => exact decodeWord_of_and_F0FF 0xF 0x07 h rfl
  case ldDtVx => exact decodeWord_of_and_F0FF 0xF 0x15 h rfl
  case ldStVx => exact decodeWord_of_and_F0FF 0xF 0x18 h rfl
  case read => exact ⟨_, exec_ldVxDt x s, fun r => s.readV_setV x r _, rfl⟩
  case sound => exact ⟨_, exec_ldStVx x s, rfl, soundActive_iff _⟩

/-! ## Ticks -/

section
variable (s : State)

theorem applyEvent_tick : applyEvent .tick s = .next (tick s) := rfl

theorem toNat_tick_DT : (tick s).DT.toNat = s.DT.toNat - 1 := countDown_toNat s.DT

theorem toNat_tick_ST : (tick s).ST.toNat = s.ST.toNat - 1 := countDown_toNat s.ST

/-- A tick changes the two timers alone. -/
theorem tick_eq : tick s = { s with DT := (tick s).DT, ST := (tick s).ST } := rfl

end

/-- Settles O52: each timer counts down on its own, and subtraction on numbers already stops at 0. -/
theorem tickCountsDownBothTimers : Obligations.TickCountsDownBothTimers := by
  intro s
  have stops (n : Nat) : n - 1 = if 0 < n then n - 1 else 0 := by split <;> omega
  exact ⟨(toNat_tick_DT s).trans (stops _), (toNat_tick_ST s).trans (stops _), tick_eq s, applyEvent_tick s⟩

/-- Settles O53, by induction on the number of ticks: the run goes on from the state after the first tick. -/
theorem timerReachesZeroAfterExactlyItsValue : Obligations.TimerReachesZeroAfterExactlyItsValue := by
  intro k
  induction k with
  | zero => exact fun s => ⟨s, rfl, rfl, rfl, rfl⟩
  | succ k ih =>
    intro s
    obtain ⟨t, hrun, hDT, hST, hframe⟩ := ih (tick s)
    refine ⟨t, (runEvents_cons (applyEvent_tick s) _).trans hrun, ?delay, ?sound, hframe⟩
    case delay =>
      rw [hDT, toNat_tick_DT]
      omega
    case sound =>
      rw [hST, toNat_tick_ST]
      omega

end Sys2Proof.Machine
end

section
/-! PROOF. The exceptions family: what a halted core keeps through every event but `reset` (60_exceptions.md R264). -/

namespace Sys2Proof.Machine

/-! ## Events of a halted core -/

theorem load_of_fits {bytes : List Byte} (s : State) (h : bytes.length ≤ Config.maxRom) :
    load bytes s = s.setMem (placeBytes bytes Config.progBase s.mem) :=
  if_neg (Nat.not_lt.2 h)

theorem load_of_tooLong {bytes : List Byte} (s : State) (h : Config.maxRom < bytes.length) :
    load bytes s = raise .romTooLarge 0 0 s :=
  if_pos h

/-- The step event of a halted core takes nothing from the line of random bytes. -/
theorem stepWith_of_halted {s : State} (rand : Byte) (h : s.halted = true) : stepWith rand s = .next s :=
  (stepWith_of_step (step_of_halted h)).trans rfl

/-- `s` with the memory, the timers, the keypad and the report of `t`: the state that events can still change while the
core is halted (R264). -/
def takeOutside (s t : State) : State :=
  { s with
    mem := t.mem, DT := t.DT, ST := t.ST, K := t.K, errCode := t.errCode, errInstr := t.errInstr, errPc := t.errPc }

/-- The report, all three parts of it (10_state.md R31), is the same in both states. -/
def SameReport (s t : State) : Prop := t.errCode = s.errCode ∧ t.errInstr = s.errInstr ∧ t.errPc = s.errPc

theorem SameReport.trans {s u t : State} (hsu : SameReport s u) (hut : SameReport u t) : SameReport s t := by
  obtain ⟨hcode, hinstr, hpc⟩ := hsu
  obtain ⟨hcode', hinstr', hpc'⟩ := hut
  exact ⟨hcode'.trans hcode, hinstr'.trans hinstr, hpc'.trans hpc⟩

/-- What the events `es` keep of a halted core that they take from `s` to `t`. A second error, which only a load too
long can raise then, writes the report again (R264, R265; 92_eei_decisions.md D32). -/
structure StaysHalted (es : List Event) (s t : State) : Prop where
  frame : t = takeOutside s t
  report : (∀ bytes, Event.load bytes ∈ es → bytes.length ≤ Config.maxRom) → SameReport s t

namespace StaysHalted

theorem refl (es : List Event) (s : State) : StaysHalted es s s := ⟨rfl, fun _ => ⟨rfl, rfl, rfl⟩⟩

/-- Stated for any keypad, so that no check unfolds the bits of a `set_keys`. -/
theorem setK (es : List Event) (s : State) (k : Vector Bool 16) : StaysHalted es s (s.setK k) :=
  ⟨rfl, fun _ => ⟨rfl, rfl, rfl⟩⟩

theorem cons {e : Event} {es : List Event} {s u t : State} (hsu : StaysHalted [e] s u) (hut : StaysHalted es u t) :
    StaysHalted (e :: es) s t where
  frame := hut.frame.trans (congrArg (takeOutside · t) hsu.frame :)
  report hfits :=
    (hsu.report fun bytes hmem => hfits bytes (List.mem_singleton.1 hmem ▸ List.mem_cons_self)).trans
      (hut.report fun bytes hmem => hfits bytes (List.mem_cons_of_mem e hmem))

theorem halted {es : List Event} {s t : State} (h : StaysHalted es s t) : t.halted = s.halted :=
  (congrArg State.halted h.frame :)

theorem load (bytes : List Byte) (s : State) (hhalt : s.halted = true) :
    StaysHalted [.load bytes] s (load bytes s) := by
  by_cases hlen : bytes.length ≤ Config.maxRom
  · rw [load_of_fits s hlen]
    exact ⟨rfl, fun _ => ⟨rfl, rfl, rfl⟩⟩
  · rw [load_of_tooLong s (Nat.lt_of_not_le hlen)]
    refine ⟨?_, fun hfits => absurd (hfits bytes (List.mem_singleton_self _)) hlen⟩
    simp only [raise, State.setLatch, takeOutside, hhalt]

end StaysHalted

theorem staysHalted_of_applyEvent {e : Event} {s t : State} (hhalt : s.halted = true) (hreset : e ≠ .reset)
    (h : applyEvent e s = .next t) : StaysHalted [e] s t := by
  cases e with
  | reset => exact absurd rfl hreset
  | load bytes =>
    cases h
    exact .load bytes s hhalt
  | setKeys k =>
    cases h
    exact .setK _ s _
  | tick =>
    cases h
    exact ⟨rfl, fun _ => ⟨rfl, rfl, rfl⟩⟩
  | step rand =>
    cases (stepWith_of_halted rand hhalt).symm.trans h
    exact .refl _ s

/-! ## Schedules -/

/-- A schedule that answers a next state got there through the state its first event answered. -/
theorem runEvents_cons_eq_next {e : Event} {es : List Event} {s t : State} (h : runEvents (e :: es) s = .next t) :
    ∃ u, applyEvent e s = .next u ∧ runEvents es u = .next t := by
  rw [runEvents] at h
  split at h
  · next u hu => exact ⟨u, hu, h⟩
  all_goals cases h

/-- Along a schedule the first event keeps the core halted, so the rest of it is again a schedule of a halted core. -/
theorem staysHalted_of_runEvents {es : List Event} {s t : State} (hhalt : s.halted = true) (hreset : .reset ∉ es)
    (h : runEvents es s = .next t) : StaysHalted es s t := by
  induction es generalizing s with
  | nil =>
    cases h
    exact .refl [] _
  | cons e es ih =>
    obtain ⟨u, hevent, hrest⟩ := runEvents_cons_eq_next h
    obtain ⟨hfirst, hnone⟩ := not_or.1 (mt List.mem_cons.2 hreset)
    have hsu := staysHalted_of_applyEvent hhalt (Ne.symm hfirst) hevent
    exact hsu.cons (ih (hsu.halted.trans hhalt) hnone hrest)

/-- Settles O51: the frame and the report that each event keeps, every schedule keeps. -/
theorem onlyResetLeavesTheHaltedCondition : Obligations.OnlyResetLeavesTheHaltedCondition := by
  intro es s t hhalt hreset hrun
  have h := staysHalted_of_runEvents hhalt hreset hrun
  have kept {α : Type} (field : State → α) : field t = field (takeOutside s t) := congrArg field h.frame
  exact ⟨h.halted.trans hhalt, kept State.V, kept State.pc, kept State.I, kept State.stack, kept State.sp,
    kept State.disp, kept State.awaitingKey, kept State.keyDest, h.report⟩

end Sys2Proof.Machine
end

section
/-! PROOF. The reset and hazards family: what the `load` event does to the state (70_reset_and_hazards.md R292, R293). -/

namespace Sys2Proof.Machine

theorem applyEvent_load (bytes : List Byte) (s : State) : applyEvent (.load bytes) s = .next (load bytes s) := rfl

/-- Settles O55: an image that fits is placed byte by byte from 0x200, and a longer one only raises the error. -/
theorem loadCopiesTheImageOrFaults : Obligations.LoadCopiesTheImageOrFaults := by
  intro bytes s
  refine ⟨fun hfits => ?fits, fun hlong => ?tooLong⟩
  case fits =>
    refine ⟨s.setMem (placeBytes bytes Config.progBase s.mem), ?_, rfl, memGet_placeBytes bytes 0x200 s.mem⟩
    rw [applyEvent_load, load_of_fits s hfits]
  case tooLong =>
    rw [applyEvent_load, load_of_tooLong s hlong]
    rfl

end Sys2Proof.Machine
end

section
/-! PROOF. The encoder and the decoder are inverse, and the opcode table, the illegal words and the ignored bits follow
(30_encoding.md R91 to R101). `Instr.withFields` is the operand side of R92: a word that matches the row of an
instruction is the encoding of that row's instruction with the operands of the word's own fields. -/

namespace Sys2Proof

/-! ## A word from its matched bits and its fields -/

section
variable {w : Word} {op : Nib}

theorem wordXI_of_fieldOp (h : fieldOp w = op) : wordXI op (fieldX w) (fieldNN w) = w := h ▸ wordXI_fields w

theorem wordA_of_fieldOp (h : fieldOp w = op) : wordA op (fieldNNN w) = w := h ▸ wordA_fields w

theorem wordXYN_of_fieldOp (h : fieldOp w = op) : wordXYN op (fieldX w) (fieldY w) (fieldN w) = w :=
  h ▸ wordXYN_fields w

/-- A match under the mask 0xF00F fixes `op` and `n`: the word is the format `XYN` word of them and its own `x`, `y`. -/
theorem eq_wordXYN_of_and_F00F (n : Nib) (h : w &&& 0xF00F#16 = BitVec.ofNat 16 (op.val * 4096 + n.val)) :
    w = wordXYN op (fieldX w) (fieldY w) n := by
  have hnat := congrArg BitVec.toNat h
  rw [toNat_and_F00F, BitVec.toNat_ofNat] at hnat
  apply BitVec.eq_of_toNat_eq
  rw [Laws.toNat_wordXYN]
  simp only [fieldX, fieldY, nibbleAt, Fin.val_ofNat]
  omega
end

/-! ## A word that matches a row -/

/-- The instruction of `i`'s row whose operands are the fields of `w` (R92). -/
def Instr.withFields (i : Instr) (w : Word) : Instr :=
  match i with
  | .cls _ => .cls (fieldX w)
  | .ret _ => .ret (fieldX w)
  | .jp _ => .jp (fieldNNN w)
  | .call _ => .call (fieldNNN w)
  | .seImm _ _ => .seImm (fieldX w) (fieldNN w)
  | .sneImm _ _ => .sneImm (fieldX w) (fieldNN w)
  | .seReg _ _ _ => .seReg (fieldX w) (fieldY w) (fieldN w)
  | .ldImm _ _ => .ldImm (fieldX w) (fieldNN w)
  | .addImm _ _ => .addImm (fieldX w) (fieldNN w)
  | .ldReg _ _ => .ldReg (fieldX w) (fieldY w)
  | .orReg _ _ => .orReg (fieldX w) (fieldY w)
  | .andReg _ _ => .andReg (fieldX w) (fieldY w)
  | .xorReg _ _ => .xorReg (fieldX w) (fieldY w)
  | .addReg _ _ => .addReg (fieldX w) (fieldY w)
  | .subReg _ _ => .subReg (fieldX w) (fieldY w)
  | .shr _ _ => .shr (fieldX w) (fieldY w)
  | .subn _ _ => .subn (fieldX w) (fieldY w)
  | .shl _ _ => .shl (fieldX w) (fieldY w)
  | .sneReg _ _ _ => .sneReg (fieldX w) (fieldY w) (fieldN w)
  | .ldI _ => .ldI (fieldNNN w)
  | .jpV0 _ => .jpV0 (fieldNNN w)
  | .rnd _ _ => .rnd (fieldX w) (fieldNN w)
  | .drw _ _ _ => .drw (fieldX w) (fieldY w) (fieldN w)
  | .skp _ => .skp (fieldX w)
  | .sknp _ => .sknp (fieldX w)
  | .ldVxDt _ => .ldVxDt (fieldX w)
  | .ldVxK _ => .ldVxK (fieldX w)
  | .ldDtVx _ => .ldDtVx (fieldX w)
  | .ldStVx _ => .ldStVx (fieldX w)
  | .addIVx _ => .addIVx (fieldX w)
  | .ldF _ => .ldF (fieldX w)
  | .ldB _ => .ldB (fieldX w)
  | .stRegs _ => .stRegs (fieldX w)
  | .ldRegs _ => .ldRegs (fieldX w)

theorem Instr.row_withFields (i : Instr) (w : Word) : (i.withFields w).row = i.row := by cases i <;> rfl

/-- A match under the row's mask fixes every bit of the word but its operand fields. -/
theorem encode_withFields (i : Instr) {w : Word} (h : w &&& i.row.mask = i.row.value) :
    encode (i.withFields w) = w := by
  cases i with
  | cls | ret | skp | sknp | ldVxDt | ldVxK | ldDtVx | ldStVx | addIVx | ldF | ldB | stRegs | ldRegs =>
    exact (eq_wordXI_of_and_F0FF _ _ h).symm
  | ldReg | orReg | andReg | xorReg | addReg | subReg | shr | subn | shl =>
    exact (eq_wordXYN_of_and_F00F _ h).symm
  | seImm | sneImm | ldImm | addImm | rnd => exact wordXI_of_fieldOp (fieldOp_of_and_F000 _ h)
  | jp | call | ldI | jpV0 => exact wordA_of_fieldOp (fieldOp_of_and_F000 _ h)
  | seReg | sneReg | drw => exact wordXYN_of_fieldOp (fieldOp_of_and_F000 _ h)

/-- A word that matches a row of R94's table decodes to that row's instruction with the operands of its fields. -/
theorem decodeWord_of_row (i : Instr) {w : Word} (h : w &&& i.row.mask = i.row.value) :
    decodeWord w = .ok (i.withFields w) := by
  conv_lhs => rw [← encode_withFields i h]
  exact decodeWord_encode _

/-! ## What the dispatcher answers -/

section
variable {x y n : Nib} {nn : Byte} {i : Instr}

theorem encode_of_decodeFamily0 (h : decodeFamily0 x nn = .ok i) : encode i = wordXI 0x0 x nn := by
  unfold decodeFamily0 at h
  split_ifs at h <;> cases h <;> subst nn <;> rfl

theorem encode_of_decodeFamily8 (h : decodeFamily8 x y n = .ok i) : encode i = wordXYN 0x8 x y n := by
  unfold decodeFamily8 at h
  split at h <;> cases h <;> simp [encode, wordXYN, *]

theorem encode_of_decodeFamilyE (h : decodeFamilyE x nn = .ok i) : encode i = wordXI 0xE x nn := by
  unfold decodeFamilyE at h
  split_ifs at h <;> cases h <;> subst nn <;> rfl

theorem encode_of_decodeFamilyF (h : decodeFamilyF x nn = .ok i) : encode i = wordXI 0xF x nn := by
  unfold decodeFamilyF at h
  split_ifs at h <;> cases h <;> subst nn <;> rfl
end

section
variable (x y n : Nib) (nn : Byte)

theorem decodeFamily0_rejects_iff : (∃ e, decodeFamily0 x nn = .error e) ↔ nn ≠ 0xE0 ∧ nn ≠ 0xEE := by
  unfold decodeFamily0
  split_ifs <;> simp_all

theorem decodeFamily8_rejects_iff : (∃ e, decodeFamily8 x y n = .error e) ↔
    n ∈ ([0x8, 0x9, 0xA, 0xB, 0xC, 0xD, 0xF] : List Nib) := by
  fin_cases n <;> simp [decodeFamily8]

theorem decodeFamilyE_rejects_iff : (∃ e, decodeFamilyE x nn = .error e) ↔ nn ≠ 0x9E ∧ nn ≠ 0xA1 := by
  unfold decodeFamilyE
  split_ifs <;> simp_all

theorem decodeFamilyF_rejects_iff : (∃ e, decodeFamilyF x nn = .error e) ↔
    nn ∉ ([0x07, 0x0A, 0x15, 0x18, 0x1E, 0x29, 0x33, 0x55, 0x65] : List Byte) := by
  unfold decodeFamilyF
  split_ifs <;> simp_all
end

/-- R95: one of the four families with a second key decides, or `op` alone selects the instruction, whose encoding is
then the word. -/
theorem decodeWord_cases (w : Word) :
    (fieldOp w = 0x0 ∧ decodeWord w = decodeFamily0 (fieldX w) (fieldNN w)) ∨
    (fieldOp w = 0x8 ∧ decodeWord w = decodeFamily8 (fieldX w) (fieldY w) (fieldN w)) ∨
    (fieldOp w = 0xE ∧ decodeWord w = decodeFamilyE (fieldX w) (fieldNN w)) ∨
    (fieldOp w = 0xF ∧ decodeWord w = decodeFamilyF (fieldX w) (fieldNN w)) ∨
    (fieldOp w ∉ ([0x0, 0x8, 0xE, 0xF] : List Nib) ∧ ∃ i, decodeWord w = .ok i ∧ encode i = w) := by
  unfold decodeWord
  split
  case h_1 hop => exact .inl ⟨Fin.ext hop, rfl⟩
  case h_9 hop => exact .inr (.inl ⟨Fin.ext hop, rfl⟩)
  case h_15 hop => exact .inr (.inr (.inl ⟨Fin.ext hop, rfl⟩))
  case h_16 =>
    have hop : (fieldOp w).val = 0xF := by
      simp only [imp_false] at *
      omega
    exact .inr (.inr (.inr (.inl ⟨Fin.ext hop, rfl⟩)))
  case h_4 hop | h_5 hop | h_7 hop | h_8 hop | h_13 hop =>
    exact .inr (.inr (.inr (.inr ⟨by simp [Fin.ext_iff, hop], _, rfl, wordXI_of_fieldOp (Fin.ext hop)⟩)))
  case h_2 hop | h_3 hop | h_11 hop | h_12 hop =>
    exact .inr (.inr (.inr (.inr ⟨by simp [Fin.ext_iff, hop], _, rfl, wordA_of_fieldOp (Fin.ext hop)⟩)))
  case h_6 hop | h_10 hop | h_14 hop =>
    exact .inr (.inr (.inr (.inr ⟨by simp [Fin.ext_iff, hop], _, rfl, wordXYN_of_fieldOp (Fin.ext hop)⟩)))

/-- Settles O2: each family keeps both of its keys and the fields it does not look at, and elsewhere `op` and the fields
are the whole word. -/
theorem encodeInvertsDecode : Obligations.EncodeInvertsDecode := by
  intro w i h
  obtain ⟨hop, hdec⟩ | ⟨hop, hdec⟩ | ⟨hop, hdec⟩ | ⟨hop, hdec⟩ | ⟨-, j, hdec, hj⟩ := decodeWord_cases w
  · exact (encode_of_decodeFamily0 (hdec.symm.trans h)).trans (wordXI_of_fieldOp hop)
  · exact (encode_of_decodeFamily8 (hdec.symm.trans h)).trans (wordXYN_of_fieldOp hop)
  · exact (encode_of_decodeFamilyE (hdec.symm.trans h)).trans (wordXI_of_fieldOp hop)
  · exact (encode_of_decodeFamilyF (hdec.symm.trans h)).trans (wordXI_of_fieldOp hop)
  · cases hdec.symm.trans h
    exact hj

/-- Settles O4: outside the four families every word is legal, and in each of them the second key decides. -/
theorem illegalWordsAreExactlyTheListed : Obligations.IllegalWordsAreExactlyTheListed := by
  intro w
  obtain ⟨hop, hdec⟩ | ⟨hop, hdec⟩ | ⟨hop, hdec⟩ | ⟨hop, hdec⟩ | ⟨hop, i, hdec, -⟩ := decodeWord_cases w
  · rw [hdec, hop, decodeFamily0_rejects_iff]
    simp
  · rw [hdec, hop, decodeFamily8_rejects_iff]
    simp
  · rw [hdec, hop, decodeFamilyE_rejects_iff]
    simp
  · rw [hdec, hop, decodeFamilyF_rejects_iff]
    simp
  · simp only [List.mem_cons, List.not_mem_nil, or_false, not_or] at hop
    simp [hdec, hop]

/-! ## The opcode table -/

/-- The word of every instruction lies in the instruction's row: the laws per instruction, gathered. -/
theorem rowMatch (i : Instr) : Laws.RowMatch.Statement i := by
  cases i with
  | cls => exact Laws.RowMatch.cls ..
  | ret => exact Laws.RowMatch.ret ..
  | jp => exact Laws.RowMatch.jp ..
  | call => exact Laws.RowMatch.call ..
  | seImm => exact Laws.RowMatch.seImm ..
  | sneImm => exact Laws.RowMatch.sneImm ..
  | seReg => exact Laws.RowMatch.seReg ..
  | ldImm => exact Laws.RowMatch.ldImm ..
  | addImm => exact Laws.RowMatch.addImm ..
  | ldReg => exact Laws.RowMatch.ldReg ..
  | orReg => exact Laws.RowMatch.orReg ..
  | andReg => exact Laws.RowMatch.andReg ..
  | xorReg => exact Laws.RowMatch.xorReg ..
  | addReg => exact Laws.RowMatch.addReg ..
  | subReg => exact Laws.RowMatch.subReg ..
  | shr => exact Laws.RowMatch.shr ..
  | subn => exact Laws.RowMatch.subn ..
  | shl => exact Laws.RowMatch.shl ..
  | sneReg => exact Laws.RowMatch.sneReg ..
  | ldI => exact Laws.RowMatch.ldI ..
  | jpV0 => exact Laws.RowMatch.jpV0 ..
  | rnd => exact Laws.RowMatch.rnd ..
  | drw => exact Laws.RowMatch.drw ..
  | skp => exact Laws.RowMatch.skp ..
  | sknp => exact Laws.RowMatch.sknp ..
  | ldVxDt => exact Laws.RowMatch.ldVxDt ..
  | ldVxK => exact Laws.RowMatch.ldVxK ..
  | ldDtVx => exact Laws.RowMatch.ldDtVx ..
  | ldStVx => exact Laws.RowMatch.ldStVx ..
  | addIVx => exact Laws.RowMatch.addIVx ..
  | ldF => exact Laws.RowMatch.ldF ..
  | ldB => exact Laws.RowMatch.ldB ..
  | stRegs => exact Laws.RowMatch.stRegs ..
  | ldRegs => exact Laws.RowMatch.ldRegs ..

theorem opcodeTable_nodup : opcodeTable.Nodup :=
  .of_map OpRow.value (by decide)

/-- Settles O3: a legal word is an encoding and so lies in its row, a word of a row decodes into that row, and since it
decodes to one instruction only, it lies in one row only. -/
theorem opcodeTableSelectsTheInstruction : Obligations.OpcodeTableSelectsTheInstruction := by
  refine ⟨fun w i h => ?_, fun w i h => ⟨_, decodeWord_of_row i h, i.row_withFields w⟩, fun w i j hi hj => ?_, rfl,
    opcodeTable_nodup⟩
  · rw [← encodeInvertsDecode w i h]
    exact rowMatch i
  · have hsame : i.withFields w = j.withFields w :=
      Except.ok.inj ((decodeWord_of_row i hi).symm.trans (decodeWord_of_row j hj))
    rw [← i.row_withFields w, hsame, j.row_withFields]

/-! ## Words of the spec -/

/-- Settles O5: each legal word is the encoding of the instruction named, and the illegal ones are computed. -/
theorem wordsOfTheSpecDecode : Obligations.WordsOfTheSpecDecode :=
  ⟨decodeWord_encode (.ldImm 0xA 0x12), decodeWord_encode (.drw 1 2 5), decodeWord_encode (.cls 0xA),
    decodeWord_encode (.ret 7), decodeWord_encode (.shr 0xA 0xB), decodeWord_encode (.subn 1 2),
    decodeWord_encode (.sknp 1), decodeWord_encode (.ldRegs 0xF), decodeWord_encode (.jp 0xABC),
    rfl, rfl, rfl, rfl, rfl⟩

end Sys2Proof

namespace Sys2Proof.Machine

/-- Settles O7: the dispatch drops the nibble in five of the six forms, and a return that pops an entry does not look at
it. -/
theorem ignoredBitsSelectNothing : Obligations.IgnoredBitsSelectNothing := by
  refine fun x y a b s => ⟨rfl, rfl, rfl, rfl, rfl, fun hheld => ?_⟩
  obtain ⟨n, hn, hsp⟩ := (sp_cases s).resolve_left hheld.ne'
  exact (execRet_entry s a n hn hsp).trans (execRet_entry s b n hn hsp).symm

end Sys2Proof.Machine
end

section
/-! PROOF. The step cycle, continued: the reset state meets the step invariant, every step answers a next state, the two
ways a waiting step can go (40_step_cycle.md R126), a jump to itself (R134), and the faults of a step (60_exceptions.md
R260 to R263). -/

namespace Sys2Proof.Machine

/-- Settles O46: the event invariant holds at reset, and a core that does not wait meets the waiting condition. -/
theorem resetMeetsTheStepInvariant : Obligations.ResetMeetsTheStepInvariant :=
  (stepInv_iff _).2 ⟨eventInv_reset, waitsAtItsFetch_of_not_waiting rfl⟩

/-- Settles O12: an instruction always answers a next state, and the other branches of a step name theirs. -/
theorem everyStepAnswersANextState : Obligations.EveryStepAnswersANextState := by
  intro s
  obtain ⟨-, hstep⟩ | ⟨-, -, hstep⟩ | ⟨-, -, i, -, hstep⟩ | ⟨-, -, e, -, hstep⟩ := step_cases s
  · exact ⟨_, hstep⟩
  · exact ⟨_, hstep⟩
  · obtain ⟨t, ht, -⟩ := exec_effect i (fetchIncrement s)
    exact ⟨t, hstep.trans ht⟩
  · exact ⟨_, hstep⟩

/-! ## A write of the value held -/

section
variable {s : State}

theorem State.setPc_of_eq {w : Word} (h : s.pc = w) : s.setPc w = s := by
  subst h
  rfl

theorem State.setAwaiting_of_eq {b : Bool} (h : s.awaitingKey = b) : s.setAwaiting b = s := by
  subst h
  rfl
end

/-! ## The waiting step -/

section
variable {s : State}

theorem completeOrKeepWaiting_pressed {k : Nib} (h : lowestKey s = some k) :
    completeOrKeepWaiting s = ((s.setV s.keyDest (keyByte k)).setPc (s.pc + 2)).setAwaiting false := by
  rw [completeOrKeepWaiting, h]

theorem completeOrKeepWaiting_none (h : lowestKey s = none) : completeOrKeepWaiting s = s := by
  rw [completeOrKeepWaiting, h]
end

/-- Settles O10: `lowestKey` finds the least pressed key or none, and each answer has its equation. -/
theorem waitingStepTakesTheLeastKey : Obligations.WaitingStepTakesTheLeastKey := by
  refine fun s hrun hwait => ⟨fun k hk hleast => ?pressed, fun hnone => ?none⟩
  case pressed =>
    have hlow : lowestKey s = some k := (lowestKey_eq_some s k).2 ⟨hk, hleast⟩
    refine ⟨_, step_of_waiting hrun hwait, ?_⟩
    rw [completeOrKeepWaiting_pressed hlow]
    exact ⟨fun r => s.readV_setV s.keyDest r _, rfl⟩
  case none =>
    rw [step_of_waiting hrun hwait, completeOrKeepWaiting_none ((lowestKey_eq_none s).2 hnone)]

/-- The suspended `Fx0A`, executed again, completes the wait or keeps it. -/
theorem exec_ldVxK_again {s : State} (hwait : s.awaitingKey = true) :
    exec (.ldVxK s.keyDest) (fetchIncrement (s.setAwaiting false)) = .next (completeOrKeepWaiting s) := by
  cases hk : lowestKey s with
  | some k =>
    rw [completeOrKeepWaiting_pressed hk]
    exact execLdVxK_pressed (fetchIncrement (s.setAwaiting false)) s.keyDest k hk
  | none =>
    rw [completeOrKeepWaiting_none hk]
    refine (execLdVxK_none (fetchIncrement (s.setAwaiting false)) s.keyDest hk).trans (congrArg _ ?_)
    rw [instrAddr_fetchIncrement]
    exact State.setAwaiting_of_eq hwait

/-- Settles O11: the invariant says that the word at `pc` is the suspended `Fx0A`, so that the other step executes it
again. -/
theorem waitingStepEqualsRefetching : Obligations.WaitingStepEqualsRefetching := by
  intro s hinv hwait
  obtain ⟨hrun, hdec⟩ := hinv.waiting hwait
  calc step s
      = .next (completeOrKeepWaiting s) := step_of_waiting hrun hwait
    _ = exec (.ldVxK s.keyDest) (fetchIncrement (s.setAwaiting false)) := (exec_ldVxK_again hwait).symm
    _ = step (s.setAwaiting false) := (step_of_decode (s := s.setAwaiting false) hrun rfl hdec).symm

/-! ## The idle loop -/

theorem exec_jp (nnn : Addr12) (s : State) : exec (.jp nnn) s = .next (s.setPc (zextAddr nnn)) := rfl

/-- Settles O13: the jump's write of `pc` undoes the fetch increment. -/
theorem selfJumpIsIdle : Obligations.SelfJumpIsIdle := by
  intro s nnn hrun hfree hdec hpc
  rw [step_of_decode hrun hfree hdec, exec_jp]
  exact congrArg _ (State.setPc_of_eq hpc)

/-! ## The faults of a step -/

theorem halted_completeOrKeepWaiting (s : State) : (completeOrKeepWaiting s).halted = s.halted := by
  obtain ⟨k, -, hdone⟩ | ⟨-, hkept⟩ := completeOrKeepWaiting_cases s
  · rw [hdone]
    rfl
  · rw [hkept]

/-- An instruction halts the core only as a call with 16 entries held or as a return with none held. -/
theorem Effect.halted_cases {i : Instr} {s t : State} (h : Effect s i t) :
    t.halted = s.halted ∨
    (s.sp.val = 16 ∧ (∃ nnn, i = .call nnn) ∧ t = raise .stackOverflow (encode i) (instrAddr s) s) ∨
    (s.sp.val = 0 ∧ (∃ ign, i = .ret ign) ∧ t = raise .stackUnderflow (encode i) (instrAddr s) s) := by
  cases h with
  | callOverflow nnn hfull => exact .inr (.inl ⟨hfull, ⟨nnn, rfl⟩, rfl⟩)
  | retUnderflow ign hempty => exact .inr (.inr ⟨hempty, ⟨ign, rfl⟩, rfl⟩)
  | skip hi c => exact .inl (by rw [skipIf_eq])
  | registers | random | jump | jumpV0 | call | ret | clear | draw | index | store | delayTimer | soundTimer
    | wait => exact .inl rfl

/-- The report of an instruction just fetched holds the word as fetched and its address (R261). -/
theorem raise_fetched {i : Instr} {s : State} (f : ErrKind) (hdec : decodeWord (fetchWord s) = .ok i) :
    raise f (encode i) (instrAddr (fetchIncrement s)) (fetchIncrement s) =
      raise f (fetchWord s) s.pc (fetchIncrement s) := by
  rw [encodeInvertsDecode _ i hdec, instrAddr_fetchIncrement]

/-- Settles O45: a wait never halts the core, an instruction halts it in two cases, and an illegal word is the third. -/
theorem faultsArePreciseAndListed : Obligations.FaultsArePreciseAndListed := by
  intro s t hrun hst hhalt
  obtain ⟨hhalted, -⟩ | ⟨-, -, hstep⟩ | ⟨-, hfree, i, hdec, hstep⟩ | ⟨-, hfree, e, hdec, hstep⟩ := step_cases s
  · exact absurd (hrun.symm.trans hhalted) Bool.false_ne_true
  · cases hstep.symm.trans hst
    rw [halted_completeOrKeepWaiting, hrun] at hhalt
    exact absurd hhalt Bool.false_ne_true
  · refine ⟨hfree, ?_⟩
    obtain hkept | ⟨hsp, ⟨nnn, rfl⟩, rfl⟩ | ⟨hsp, ⟨ign, rfl⟩, rfl⟩ :=
      (effect_of_exec (hstep.symm.trans hst)).halted_cases
    · exact absurd (hrun.symm.trans (hkept.symm.trans hhalt)) Bool.false_ne_true
    · rw [raise_fetched _ hdec]
      exact ⟨rfl, .inl ⟨rfl, hsp, nnn, hdec⟩⟩
    · rw [raise_fetched _ hdec]
      exact ⟨rfl, .inr (.inl ⟨rfl, hsp, ign, hdec⟩)⟩
  · cases hstep.symm.trans hst
    exact ⟨hfree, rfl, .inr (.inr ⟨rfl, e, hdec⟩)⟩

end Sys2Proof.Machine
end

section
/-! PROOF. The control flow family, continued: the jump with offset (41_control_flow.md R152), the call (R153) and the
return (R154). -/

namespace Sys2Proof.Machine

/-! ## The jump with offset -/

theorem exec_jpV0 (nnn : Addr12) (s : State) :
    exec (.jpV0 nnn) s = .next (s.setPc (zextAddr nnn + zextByte (s.readV 0))) := rfl

/-- A 12-bit address and a byte add up within 16 bits. -/
theorem toNat_zextAddr_add_zextByte (nnn : Addr12) (b : Byte) :
    (zextAddr nnn + zextByte b).toNat = nnn.toNat + b.toNat := by
  simp only [zextAddr, zextByte, BitVec.toNat_add, BitVec.toNat_setWidth]
  omega

/-- Settles O15: one update of `pc`, to a sum that never wraps. -/
theorem jumpWithOffsetAddsV0 : Obligations.JumpWithOffsetAddsV0 :=
  ⟨fun _ => decodeWord_of_row (.jpV0 0),
    fun nnn s => ⟨_, exec_jpV0 nnn s, toNat_zextAddr_add_zextByte nnn (s.readV 0), rfl⟩⟩

/-! ## Call and return -/

/-- One entry of the stack is written. -/
theorem State.getElem_setStack (s : State) (j k : Nib) (w : Word) :
    (s.setStack k w).stack[j.val] = if j.val = k.val then w else s.stack[j.val] := by
  rw [State.setStack_stack, Vector.getElem_set]
  simp only [eq_comm]

theorem encode_call (nnn : Addr12) : encode (.call nnn) = 0x2000#16 + nnn.setWidth 16 := by
  apply BitVec.eq_of_toNat_eq
  simp only [encode, Laws.toNat_wordA, BitVec.toNat_add, BitVec.toNat_setWidth, BitVec.toNat_ofNat]
  omega

theorem encode_ret (ign : Nib) : encode (.ret ign) = BitVec.ofNat 16 (256 * ign.val + 0xEE) := by
  apply BitVec.eq_of_toNat_eq
  simp [encode, Laws.toNat_wordXI]
  omega

/-- Settles O16: with room the call is a push and an update of `pc`, and without it the call is one raised error. -/
theorem callPushesTheReturnAddress : Obligations.CallPushesTheReturnAddress := by
  refine ⟨fun _ => decodeWord_of_row (.call 0), fun nnn s => ⟨fun hroom => ?room, fun hfull => ?full⟩⟩
  case room =>
    exact ⟨_, execCall_room s nnn hroom, fun j => s.getElem_setStack j ⟨s.sp.val, hroom⟩ s.pc, rfl, rfl, rfl⟩
  case full =>
    rw [← encode_call]
    exact execCall_full s nnn (by omega)

/-- Settles O17: with an entry held the return is a pop and an update of `pc`, and without one it is one raised error. -/
theorem returnPopsTheReturnAddress : Obligations.ReturnPopsTheReturnAddress := by
  refine ⟨fun _ => decodeWord_of_row (.ret 0), fun ign s => ⟨fun j hheld => ?held, fun hempty => ?empty⟩⟩
  case held => exact ⟨_, execRet_entry s ign j.val j.isLt hheld, rfl, rfl, rfl⟩
  case empty =>
    rw [← encode_ret]
    exact execRet_empty s ign hempty

/-- Settles O18: the call writes the incremented `pc` into entry `sp`, and the return after it pops that entry. -/
theorem callThenReturnResumesAfterTheCall : Obligations.CallThenReturnResumesAfterTheCall := by
  intro s nnn hrun hfree hroom hdec
  obtain ⟨t, hcall, hstack, hsp, -, hframe⟩ := (callPushesTheReturnAddress.2 nnn (fetchIncrement s)).1 hroom
  refine ⟨t, (step_of_decode hrun hfree hdec).trans hcall, fun ign hret => ?_⟩
  have hrun' : t.halted = false := (congrArg State.halted hframe).trans hrun
  have hfree' : t.awaitingKey = false := (congrArg State.awaitingKey hframe).trans hfree
  obtain ⟨u, hexec, hpc, hsp', -⟩ := (returnPopsTheReturnAddress.2 ign (fetchIncrement t)).1 ⟨s.sp.val, hroom⟩ hsp
  refine ⟨u, (step_of_decode hrun' hfree' hret).trans hexec, ?_, Fin.ext hsp'⟩
  calc u.pc
      = t.stack[s.sp.val] := hpc
    _ = s.pc + 2 := (hstack ⟨s.sp.val, hroom⟩).trans (if_pos rfl)

end Sys2Proof.Machine
end

section
/-! PROOF. The ALU family, continued: the add of an immediate (42_alu.md R173), copy and logic (R174 to R177), the
instructions that write a result and then a flag (R171, R178 to R182), and the steps that draw no random byte (R184;
40_step_cycle.md R132). -/

namespace Sys2Proof.Machine

/-! ## One register written -/

section
variable (x y : Nib) (nn : Byte) (s : State)

theorem exec_addImm : exec (.addImm x nn) s = .next (s.setV x (aluAdd (s.readV x) nn)) := rfl

theorem exec_ldReg : exec (.ldReg x y) s = .next (s.setV x (s.readV y)) := rfl

theorem exec_orReg : exec (.orReg x y) s = .next (s.setV x (s.readV x ||| s.readV y)) := rfl

theorem exec_andReg : exec (.andReg x y) s = .next (s.setV x (s.readV x &&& s.readV y)) := rfl

theorem exec_xorReg : exec (.xorReg x y) s = .next (s.setV x (s.readV x ^^^ s.readV y)) := rfl
end

theorem toNat_aluAdd (a b : Byte) : (aluAdd a b).toNat = (a.toNat + b.toNat) % 256 := BitVec.toNat_ofNat ..

/-- Settles O22: one register write, of the sum modulo 256. -/
theorem addImmediateWrapsWithoutFlag : Obligations.AddImmediateWrapsWithoutFlag := by
  refine ⟨fun _ => decodeWord_of_row (.addImm 0 0),
    fun x nn s => ⟨_, exec_addImm x nn s, ?result, fun r hr => ?others, rfl⟩⟩
  case result => rw [State.readV_setV_same, toNat_aluAdd]
  case others => rw [State.readV_setV, if_neg hr]

/-- Settles O23: each word has its own row under the mask 0xF00F, and each instruction is one register write. -/
theorem copyAndLogicWriteOneRegister : Obligations.CopyAndLogicWriteOneRegister :=
  ⟨fun _ => ⟨decodeWord_of_row (.ldReg 0 0), decodeWord_of_row (.orReg 0 0), decodeWord_of_row (.andReg 0 0),
      decodeWord_of_row (.xorReg 0 0)⟩,
    fun x y s => ⟨⟨_, exec_ldReg x y s, rfl, fun r => s.readV_setV x r _⟩,
      ⟨_, exec_orReg x y s, rfl, fun r => s.readV_setV x r _⟩,
      ⟨_, exec_andReg x y s, rfl, fun r => s.readV_setV x r _⟩,
      ⟨_, exec_xorReg x y s, rfl, fun r => s.readV_setV x r _⟩⟩⟩

/-! ## A result and a flag written -/

section
variable (x y ign : Nib) (s : State)

theorem exec_addReg : exec (.addReg x y) s = .next
    (writeResultFlag x (aluAdd (s.readV x) (s.readV y)) (flagByte (carryFlag (s.readV x) (s.readV y))) s) := rfl

theorem exec_subReg : exec (.subReg x y) s = .next
    (writeResultFlag x (aluSub (s.readV x) (s.readV y)) (flagByte (noBorrowFlag (s.readV x) (s.readV y))) s) := rfl

theorem exec_subn : exec (.subn x y) s = .next
    (writeResultFlag x (aluSub (s.readV y) (s.readV x)) (flagByte (noBorrowFlag (s.readV y) (s.readV x))) s) := rfl

theorem exec_shr : exec (.shr x ign) s = .next
    (writeResultFlag x (aluShr (s.readV x)) (flagByte (shrFlag (s.readV x))) s) := rfl

theorem exec_shl : exec (.shl x ign) s = .next
    (writeResultFlag x (aluShl (s.readV x)) (flagByte (shlFlag (s.readV x))) s) := rfl
end

section
variable {x r : Nib} (v f : Byte) (s : State)

/-- R171: the flag is written last, so it stays, whatever `x` is. -/
theorem readV_writeResultFlag_flag : (writeResultFlag x v f s).readV 15 = f := by
  rw [State.readV_writeResultFlag, if_pos rfl]

theorem readV_writeResultFlag_result (hx : x ≠ 15) : (writeResultFlag x v f s).readV x = v := by
  rw [State.readV_writeResultFlag, if_neg hx, if_pos rfl]

theorem readV_writeResultFlag_other (hr : r ≠ x) (hflag : r ≠ 15) :
    (writeResultFlag x v f s).readV r = s.readV r := by
  rw [State.readV_writeResultFlag, if_neg hflag, if_neg hr]
end

/-- The flag byte of a comparison. -/
theorem flagByte_decide (p : Prop) [Decidable p] : flagByte (decide p) = if p then 1 else 0 := by
  simp only [flagByte, decide_eq_true_eq]

/-- 42_alu.md R170: the remainder of the exact difference. -/
theorem toNat_aluSub (a b : Byte) : ((aluSub a b).toNat : Int) = ((a.toNat : Int) - b.toNat) % 256 := by
  simp only [aluSub, BitVec.toNat_ofNat]
  omega

/-- Settles O24: the carry is the flag, written last, and the sum the result. -/
theorem addSetsTheCarryLast : Obligations.AddSetsTheCarryLast := by
  refine ⟨fun _ => decodeWord_of_row (.addReg 0 0), fun x y s => ⟨_, exec_addReg x y s,
    (readV_writeResultFlag_flag ..).trans (flagByte_decide _), fun hx => ?_,
    fun r => readV_writeResultFlag_other _ _ s, rfl⟩⟩
  rw [readV_writeResultFlag_result _ _ _ hx, toNat_aluAdd]

/-- Settles O25: for both orders of the operands, the absence of a borrow is the flag, written last, and the difference
the result. -/
theorem subtractsFlagNoBorrowLast : Obligations.SubtractsFlagNoBorrowLast := by
  refine ⟨fun _ => ⟨decodeWord_of_row (.subReg 0 0), decodeWord_of_row (.subn 0 0)⟩, fun x y s =>
    ⟨⟨_, exec_subReg x y s, (readV_writeResultFlag_flag ..).trans (flagByte_decide _), fun hx => ?_,
      fun r => readV_writeResultFlag_other _ _ s, rfl⟩,
    ⟨_, exec_subn x y s, (readV_writeResultFlag_flag ..).trans (flagByte_decide _), fun hx => ?_,
      fun r => readV_writeResultFlag_other _ _ s, rfl⟩⟩⟩
  · rw [readV_writeResultFlag_result _ _ _ hx, toNat_aluSub]
  · rw [readV_writeResultFlag_result _ _ _ hx, toNat_aluSub]

/-- Settles O26: for both directions, the bit shifted out of the old `V[x]` is the flag, written last, and the shifted
byte the result. -/
theorem shiftsFlagTheBitShiftedOut : Obligations.ShiftsFlagTheBitShiftedOut := by
  refine ⟨fun _ => ⟨decodeWord_of_row (.shr 0 0), decodeWord_of_row (.shl 0 0)⟩, fun x ign s =>
    ⟨⟨_, exec_shr x ign s, readV_writeResultFlag_flag .., fun hx => ?_,
      fun r => readV_writeResultFlag_other _ _ s, rfl⟩,
    ⟨_, exec_shl x ign s, readV_writeResultFlag_flag .., fun hx => ?_,
      fun r => readV_writeResultFlag_other _ _ s, rfl⟩⟩⟩
  · rw [readV_writeResultFlag_result _ _ _ hx, aluShr_eq]
  · rw [readV_writeResultFlag_result _ _ _ hx, aluShl_eq]

/-! ## Steps that draw no random byte -/

/-- `s` with the bytes `rs` lined up on the `rand` input (notes/assumptions/1.md). -/
def State.lineUp (rs : List Byte) (s : State) : State := { s with rands := rs }

section
variable (rs : List Byte) (s : State)

theorem lineUp_skipIf (c : Bool) : skipIf c (s.lineUp rs) = (skipIf c s).lineUp rs := by
  cases c <;> rfl

theorem lineUp_memWrite (a : Word) (v : Byte) : memWrite a v (s.lineUp rs) = (memWrite a v s).lineUp rs := by
  unfold memWrite
  split_ifs
  · rfl
  · rfl

theorem lineUp_storeBlock (k : Nat) : storeBlock k (s.lineUp rs) = (storeBlock k s).lineUp rs := by
  induction k with
  | zero => rfl
  | succ k ih =>
    rw [storeBlock, ih]
    exact lineUp_memWrite ..

theorem lineUp_loadBlock (k : Nat) : loadBlock k (s.lineUp rs) = (loadBlock k s).lineUp rs := by
  induction k with
  | zero => rfl
  | succ k ih =>
    rw [loadBlock, ih]
    rfl

theorem lineUp_completeOrKeepWaiting :
    completeOrKeepWaiting (s.lineUp rs) = (completeOrKeepWaiting s).lineUp rs := by
  cases hk : lowestKey s with
  | some k =>
    rw [completeOrKeepWaiting_pressed hk]
    exact completeOrKeepWaiting_pressed hk
  | none =>
    rw [completeOrKeepWaiting_none hk]
    exact completeOrKeepWaiting_none hk
end

/-- An instruction other than `Cxnn` neither looks at the lined-up bytes nor takes one. -/
theorem exec_lineUp {i : Instr} {s t : State} (rs : List Byte) (hi : ∀ x nn, i ≠ .rnd x nn) (h : exec i s = .next t) :
    exec i (s.lineUp rs) = .next (t.lineUp rs) := by
  cases i with
  | rnd x nn => exact absurd rfl (hi x nn)
  | call nnn =>
    by_cases hroom : s.sp.val < 16
    · cases h.symm.trans (execCall_room s nnn hroom)
      exact execCall_room (s.lineUp rs) nnn hroom
    · cases h.symm.trans (execCall_full s nnn hroom)
      exact execCall_full (s.lineUp rs) nnn hroom
  | ret ign =>
    rcases sp_cases s with hempty | ⟨n, hn, hheld⟩
    · cases h.symm.trans (execRet_empty s ign hempty)
      exact execRet_empty (s.lineUp rs) ign hempty
    · cases h.symm.trans (execRet_entry s ign n hn hheld)
      exact execRet_entry (s.lineUp rs) ign n hn hheld
  | ldVxK x =>
    cases hk : lowestKey s with
    | some k =>
      cases h.symm.trans (execLdVxK_pressed s x k hk)
      exact execLdVxK_pressed (s.lineUp rs) x k hk
    | none =>
      cases h.symm.trans (execLdVxK_none s x hk)
      exact execLdVxK_none (s.lineUp rs) x hk
  | seImm | sneImm | seReg | sneReg | skp | sknp =>
    cases h
    exact congrArg _ (lineUp_skipIf ..)
  | ldB x =>
    cases h
    simp only [← lineUp_memWrite]
    rfl
  | stRegs =>
    cases h
    exact congrArg _ (lineUp_storeBlock ..)
  | ldRegs =>
    cases h
    exact congrArg _ (lineUp_loadBlock ..)
  | cls | jp | jpV0 | ldImm | addImm | ldReg | orReg | andReg | xorReg | addReg | subReg | shr | subn | shl | ldI
    | drw | ldVxDt | ldDtVx | ldStVx | addIVx | ldF =>
    cases h
    rfl

/-- A step that executes no `Cxnn` answers the same state, whatever bytes are lined up. -/
theorem step_lineUp {s t : State} (rs : List Byte)
    (hnone : s.halted = true ∨ s.awaitingKey = true ∨ ∀ x nn, decodeWord (fetchWord s) ≠ .ok (.rnd x nn))
    (h : step s = .next t) : step (s.lineUp rs) = .next (t.lineUp rs) := by
  obtain ⟨hhalt, hstep⟩ | ⟨hrun, hwait, hstep⟩ | ⟨hrun, hfree, i, hdec, hstep⟩ | ⟨hrun, hfree, e, hdec, hstep⟩ :=
    step_cases s
  · cases hstep.symm.trans h
    exact step_of_halted (s := s.lineUp rs) hhalt
  · cases hstep.symm.trans h
    rw [← lineUp_completeOrKeepWaiting]
    exact step_of_waiting (s := s.lineUp rs) hrun hwait
  · have hi : ∀ x nn, i ≠ .rnd x nn := by simpa [hrun, hfree, hdec] using hnone
    exact (step_of_decode (s := s.lineUp rs) hrun hfree hdec).trans (exec_lineUp rs hi (hstep.symm.trans h))
  · cases hstep.symm.trans h
    exact step_of_reject (s := s.lineUp rs) hrun hfree hdec

/-- Settles O28: with either byte lined up the step answers what it answers without, and then the line is put back. -/
theorem stepIgnoresRandUnlessRnd : Obligations.StepIgnoresRandUnlessRnd := by
  intro s r1 r2 hnone
  obtain ⟨t, ht⟩ := everyStepAnswersANextState s
  have hevent (rand : Byte) : stepWith rand s = .next (t.lineUp s.rands) :=
    stepWith_of_step (t := t.lineUp (rand :: s.rands)) (step_lineUp (rand :: s.rands) hnone ht)
  rw [hevent r1, hevent r2]

end Sys2Proof.Machine
end

section
/-! PROOF. The index and memory family, continued: index arithmetic (43_index_memory.md R201, R202), the stores (R203,
R204), the load of a block (R205) and the byte store (20_memory.md R62, R63). -/

namespace Sys2Proof.Machine

/-! ## Index arithmetic -/

theorem exec_addIVx (x : Nib) (s : State) :
    exec (.addIVx x) s = .next (s.setI (s.I + zextByte (s.readV x))) := rfl

theorem exec_ldF (x : Nib) (s : State) : exec (.ldF x) s = .next (s.setI (glyphAddr (s.readV x))) := rfl

theorem toNat_add_zextByte (w : Word) (b : Byte) : (w + zextByte b).toNat = (w.toNat + b.toNat) % 65536 := by
  simp only [zextByte, BitVec.toNat_add, BitVec.toNat_setWidth]
  omega

/-- The glyph a register value names is the value under the mask 0x0F. -/
theorem toNat_and_0F (b : Byte) : (b &&& 0x0F#8).toNat = (lowNibble b).val := by
  rw [lowNibble_val, BitVec.toNat_and]
  exact Nat.and_two_pow_sub_one_eq_mod _ 4

/-- R202: the glyph's address, far below 65536. -/
theorem toNat_glyphAddr (b : Byte) : (glyphAddr b).toNat = 0x050 + 5 * (b &&& 0x0F#8).toNat := by
  simp only [toNat_and_0F, glyphAddr, BitVec.toNat_ofNat, Config.fontBase, Config.glyphBytes]
  omega

/-- Settles O30: each instruction is one update of `I`. -/
theorem indexAddAndGlyphAddress : Obligations.IndexAddAndGlyphAddress :=
  ⟨fun _ => ⟨decodeWord_of_row (.addIVx 0), decodeWord_of_row (.ldF 0)⟩, fun x s =>
    ⟨⟨_, exec_addIVx x s, toNat_add_zextByte s.I (s.readV x), rfl⟩,
      ⟨_, exec_ldF x s, toNat_glyphAddr (s.readV x), rfl⟩⟩⟩

/-! ## One byte stored -/

theorem inFont_iff (a : Nat) : inFont a = true ↔ 0x050 ≤ a ∧ a ≤ 0x09F := by
  simp only [inFont, Bool.and_eq_true, decide_eq_true_eq]

/-- Settles O34: an address is masked by a remainder, and the store reads back at the same remainder, but for the
font. -/
theorem storesAreMaskedAndSpareTheFont : Obligations.StoresAreMaskedAndSpareTheFont := by
  refine fun a b v s => ⟨?_, memWrite_eq s a v⟩
  rw [memRead_memWrite]
  simp only [mask12_eq, ← Bool.not_eq_true, inFont_iff, eq_comm (a := b.toNat % 4096)]

theorem memRead_memWrite_same (s : State) (a : Word) (v : Byte) :
    memRead (memWrite a v s) a = if inFont (mask12 a) then memRead s a else v := by
  rw [memRead_memWrite]
  cases inFont (mask12 a) <;> simp

theorem memRead_memWrite_other {a b : Word} (s : State) (v : Byte) (h : mask12 b ≠ mask12 a) :
    memRead (memWrite a v s) b = memRead s b := by
  rw [memRead_memWrite, if_neg fun hsame => h hsame.1]

/-! ## The digits stored -/

/-- The state that the three stores of `Fx33` answer (R203). -/
def digitsStored (x : Nib) (s : State) : State :=
  memWrite (blockAddr s.I 2) (bcdOnes (s.readV x))
    (memWrite (blockAddr s.I 1) (bcdTens (s.readV x)) (memWrite (blockAddr s.I 0) (bcdHundreds (s.readV x)) s))

theorem exec_ldB (x : Nib) (s : State) : exec (.ldB x) s = .next (digitsStored x s) := rfl

theorem storesOnly_digitsStored (x : Nib) (s : State) : StoresOnly s (digitsStored x s) :=
  (((StoresOnly.refl s).write _ _).write _ _).write _ _

section
variable (x : Nib) (s : State)

/-- The three bytes do not overlap, so that each reads back past the stores after it and before it. -/
theorem memRead_digitsStored_zero : memRead (digitsStored x s) (blockAddr s.I 0) =
    if inFont (mask12 (blockAddr s.I 0)) then memRead s (blockAddr s.I 0) else bcdHundreds (s.readV x) := by
  rw [digitsStored, memRead_memWrite_other, memRead_memWrite_other, memRead_memWrite_same] <;>
    simp [mask12_blockAddr_inj]

theorem memRead_digitsStored_one : memRead (digitsStored x s) (blockAddr s.I 1) =
    if inFont (mask12 (blockAddr s.I 1)) then memRead s (blockAddr s.I 1) else bcdTens (s.readV x) := by
  rw [digitsStored, memRead_memWrite_other, memRead_memWrite_same, memRead_memWrite_other] <;>
    simp [mask12_blockAddr_inj]

theorem memRead_digitsStored_two : memRead (digitsStored x s) (blockAddr s.I 2) =
    if inFont (mask12 (blockAddr s.I 2)) then memRead s (blockAddr s.I 2) else bcdOnes (s.readV x) := by
  rw [digitsStored, memRead_memWrite_same, memRead_memWrite_other, memRead_memWrite_other] <;>
    simp [mask12_blockAddr_inj]
end

/-- Settles O31: three stores at addresses that do not overlap, each read back on its own. -/
theorem bcdStoresThreeDigits : Obligations.BcdStoresThreeDigits := by
  refine ⟨fun _ => decodeWord_of_row (.ldB 0), fun x s => ⟨_, exec_ldB x s, (storesOnly_digitsStored x s).frame, ?_,
    sameMemoryOutside_execLdB x (exec_ldB x s)⟩⟩
  rintro j d (⟨rfl, rfl⟩ | ⟨rfl, rfl⟩ | ⟨rfl, rfl⟩)
  · exact memRead_digitsStored_zero x s
  · exact memRead_digitsStored_one x s
  · exact memRead_digitsStored_two x s

/-! ## Blocks of registers -/

theorem exec_stRegs (x : Nib) (s : State) : exec (.stRegs x) s = .next (storeBlock (x.val + 1) s) := rfl

theorem exec_ldRegs (x : Nib) (s : State) : exec (.ldRegs x) s = .next (loadBlock (x.val + 1) s) := rfl

/-- Settles O32: the block of `x + 1` bytes, stored byte by byte. -/
theorem storeBlockWritesTheRegisters : Obligations.StoreBlockWritesTheRegisters := by
  refine ⟨fun _ => decodeWord_of_row (.stRegs 0), fun x s => ⟨_, exec_stRegs x s, storeBlock_eq _ s, fun j hj => ?_,
    memRead_storeBlock_outside _ s⟩⟩
  rw [memRead_storeBlock _ s j.val (Nat.lt_succ_of_le hj) x.isLt, Fin.ofNat_val_eq_self]

/-- Settles O33: the block of `x + 1` bytes, loaded byte by byte; the address of each is a remainder. -/
theorem loadBlockReadsMemory : Obligations.LoadBlockReadsMemory := by
  refine ⟨fun _ => decodeWord_of_row (.ldRegs 0), fun x s => ⟨_, exec_ldRegs x s, loadBlock_eq _ s, fun j => ?_⟩⟩
  rw [readV_loadBlock _ s j x.isLt, memRead, mask12_blockAddr]
  exact if_congr Nat.lt_succ_iff rfl rfl

end Sys2Proof.Machine
end
